-- ==== Sys2Proof/Word.lean ====
section
/-!
DEFINITION. The word types of PVR9 (spec/00_scope.md R8, R10): bytes, the 16-bit timestamp, and strings as
sequences of character codes.
-/

namespace Sys2Proof

/-- A byte, unsigned 0 to 255 (R8). -/
abbrev Byte := BitVec 8

/-- A 16-bit unsigned value: a timestamp or a delta (R8, R23). -/
abbrev Half := BitVec 16

/-- A String: a sequence of character codes (R10, decision D10). DESIGN CHOICE: a code is held in a byte, since
`TEXT_POLICY = passthrough` can put codes above 0x7F into a string (R112). Safe. See log 17. -/
abbrev Str := List Byte

end Sys2Proof
end

