-- ==== Sys2Proof/Config.lean ====
section
/-!
DEFINITION. The fixed quantities (spec/00_scope.md R6) and the parameters (R7, 10_state.md R37): the registry,
the parity sense, the text policy and the bound of a PV used alone. The parameters travel in the state
(`State.cfg`) and no step changes them. See log 1.
-/

namespace Sys2Proof

/-- R6 `GROUP_BITS`. -/
abbrev groupBits : Nat := 9
/-- R6 `DATA_BITS`, which is also `PAR_POS`, the place of the parity bit in a group. -/
abbrev dataBits : Nat := 8
/-- R6 `HEADER_BYTES`. -/
abbrev headerBytes : Nat := 4
/-- R6 `MAX_PAYLOAD`. -/
abbrev maxPayload : Nat := 255
/-- R6 `TS_MOD`. -/
abbrev tsMod : Nat := 65536
/-- R6 `MAX_GROUPS`. -/
abbrev maxGroups : Nat := 226
/-- R6 `MAX_STR`. -/
abbrev maxStr : Nat := 510

/-- The four decoder kinds (R85). -/
inductive DecoderKind where
  | empty
  | text
  | rawHex
  | parityHex
  deriving DecidableEq, Repr

/-- The numbers R85 and R37 give the kinds. -/
def DecoderKind.number : DecoderKind → BitVec 2
  | .empty => 0
  | .text => 1
  | .rawHex => 2
  | .parityHex => 3

/-- The kind of a 2-bit kind field (R85, R37): all four values are legal. -/
def DecoderKind.ofNumber (n : BitVec 2) : DecoderKind :=
  if n = 0 then .empty else if n = 1 then .text else if n = 2 then .rawHex else .parityHex

/-- The name "EMPTY" (R86), character by character. PRESUMED: the codes of letters are standard ASCII (log 17). -/
def nameEmpty : Str := [0x45, 0x4D, 0x50, 0x54, 0x59]
/-- The name "GENERIC" (R87). -/
def nameGeneric : Str := [0x47, 0x45, 0x4E, 0x45, 0x52, 0x49, 0x43]
/-- The name "UNKNOWN" (R88, R89). -/
def nameUnknown : Str := [0x55, 0x4E, 0x4B, 0x4E, 0x4F, 0x57, 0x4E]
/-- The name "RESET APP" (R90). -/
def nameResetApp : Str := [0x52, 0x45, 0x53, 0x45, 0x54, 0x20, 0x41, 0x50, 0x50]
/-- The name "CODEC RX W/PARITY" (R90). -/
def nameCodecRxWParity : Str :=
  [0x43, 0x4F, 0x44, 0x45, 0x43, 0x20, 0x52, 0x58, 0x20, 0x57, 0x2F, 0x50, 0x41, 0x52, 0x49, 0x54, 0x59]

/-- One registry entry: display name and decoder kind (R84). -/
structure Descriptor where
  name : Str
  kind : DecoderKind
  deriving DecidableEq, Repr

/-- `is_sentinel` of R37 and R84: the name is "EMPTY". -/
def Descriptor.isSentinel (d : Descriptor) : Bool := d.name == nameEmpty

/-- The entry of code 0x00 (R86). -/
def descEmpty : Descriptor := ⟨nameEmpty, .empty⟩
/-- The entry of code 0x10 (R87). -/
def descGeneric : Descriptor := ⟨nameGeneric, .text⟩
/-- The default entry, and that of code 0x99 (R88, R89). -/
def descUnknown : Descriptor := ⟨nameUnknown, .rawHex⟩
/-- The entry of `CODE_RESET_APP` (R90). -/
def descResetApp : Descriptor := ⟨nameResetApp, .empty⟩
/-- The entry of `CODE_CODEC_RX_W_PARITY`; the kind is the spec's reading of the name (R90, N4). See log 12. -/
def descCodecRxWParity : Descriptor := ⟨nameCodecRxWParity, .parityHex⟩

/-- `REGISTRY` (R84): the codes the configuration assigns, each with its entry. Every other code has the default
entry, so the table is total on the 256 codes (R89). Of two rows for one code the first counts. See log 1. -/
structure Registry where
  assigned : List (Byte × Descriptor)
  deriving DecidableEq, Repr

/-- The entry of a code in a list of rows, the default where no row assigns it (R89). -/
def lookupIn (c : Byte) : List (Byte × Descriptor) → Descriptor
  | [] => descUnknown
  | (k, d) :: rows => if k = c then d else lookupIn c rows

/-- `REGISTRY[c]`, total over all 256 codes (R84). -/
def Registry.lookup (reg : Registry) (c : Byte) : Descriptor := lookupIn c reg.assigned

/-- The conditions of R91; (a) and (e) hold of every value of the type. -/
def Registry.legal (reg : Registry) : Bool :=
  reg.lookup 0x00 == descEmpty && (reg.lookup 0x10 == descGeneric && reg.lookup 0x99 == descUnknown)

/-- `c` is a code the parameter `CODE_RESET_APP` of R7 can stand for: its entry is named "RESET APP", kind Empty. -/
def Registry.IsCodeResetApp (reg : Registry) (c : Byte) : Prop := reg.lookup c = descResetApp

/-- `c` is a code the parameter `CODE_CODEC_RX_W_PARITY` of R7 can stand for. -/
def Registry.IsCodeCodecRxWParity (reg : Registry) (c : Byte) : Prop := reg.lookup c = descCodecRxWParity

/-- `TEXT_POLICY` (R7, R37); the replacement character has seven bits. -/
inductive TextPolicy where
  | fault
  | replace (c : BitVec 7)
  | passthrough
  deriving DecidableEq, Repr

/-- The 2-bit kind field of `TEXT_POLICY` (R37). -/
def TextPolicy.number : TextPolicy → BitVec 2
  | .fault => 0
  | .replace _ => 1
  | .passthrough => 2

/-- The 7-bit field `c` of `TEXT_POLICY`, which is used when the kind is 1 only (R37). -/
def TextPolicy.character : TextPolicy → Option (BitVec 7)
  | .fault => none
  | .replace c => some c
  | .passthrough => none

/-- The policy of the two fields of `TEXT_POLICY` (R37); the kind value 3 is not legal. -/
def TextPolicy.ofFields (kind : BitVec 2) (c : BitVec 7) : Option TextPolicy :=
  if kind = 0 then some .fault
  else if kind = 1 then some (.replace c)
  else if kind = 2 then some .passthrough
  else none

/-- The parameters of R7 but `S`: `PAR_ODD` (true is 1), `TEXT_POLICY`, `REGISTRY`, `PV_MAX_LEN`. -/
structure Config where
  parOdd : Bool
  textPolicy : TextPolicy
  registry : Registry
  pvMaxLen : Nat
  deriving DecidableEq, Repr

/-- A legal configuration (R91, R249 `WellFormedConfig`); the other parameters are legal by their types (R37). -/
def Config.legal (cfg : Config) : Bool := cfg.registry.legal

/-- FREE VALUE. The assignments of the open part of `REGISTRY` (R90, N3, D7): nothing is known of them. See log 3. -/
opaque Config.openAssignments : List (Byte × Descriptor)

/-- The registry of the reset state: the three entries the source fixes (R86 to R88), then the open part (R90). -/
def Registry.default : Registry :=
  ⟨[(0x00, descEmpty), (0x10, descGeneric), (0x99, descUnknown)] ++ Config.openAssignments⟩

/-- The defaults of R7: `PAR_ODD = 1`, `TEXT_POLICY = fault`, `PV_MAX_LEN = 255`. -/
def Config.default : Config :=
  { parOdd := true, textPolicy := .fault, registry := Registry.default, pvMaxLen := maxPayload }

end Sys2Proof
end

