-- ==== Sys2Proof/Syntax.lean ====
section
/-!
DEFINITION. The instructions of PVR9 (spec/30_encoding.md R95, opcode_table.json): nine record kinds, each by the
fields of its header, and the nine-bit group. The payload of a record is not part of its header word: the record's
meaning reads it from the stream (R80, R174).
-/

namespace Sys2Proof

/-- One constructor per row of the opcode table. `c` is `eventCode`, `len` is `dataLength`, `ts` the timestamp. -/
inductive Instr where
  /-- EMPTY: a sentinel header, chosen by the name its code resolves to (R86, R173); `c` is 0x00 or any other code a
  configuration names "EMPTY" (R91). -/
  | empty (c len : Byte) (ts : Half)
  /-- GENERIC: code 0x10, kind Text (R87). -/
  | generic (len : Byte) (ts : Half)
  /-- UNKNOWN: 0x99 and every unassigned code, kind RawHex (R88, R89). -/
  | unknown (c len : Byte) (ts : Half)
  /-- RESET_APP: the code named "RESET APP", kind Empty (R90). -/
  | resetApp (c len : Byte) (ts : Half)
  /-- CODEC_RX_W_PARITY: the code named "CODEC RX W/PARITY", kind ParityHex (R90). -/
  | codecRxWParity (c len : Byte) (ts : Half)
  /-- REC.EMPTYDEC: any other code of kind Empty (R95). -/
  | recEmptyDec (c len : Byte) (ts : Half)
  /-- REC.TEXT: any other code of kind Text (R95). -/
  | recText (c len : Byte) (ts : Half)
  /-- REC.RAWHEX: any other code of kind RawHex (R95). -/
  | recRawHex (c len : Byte) (ts : Half)
  /-- REC.PARHEX: any other code of kind ParityHex (R95). -/
  | recParHex (c len : Byte) (ts : Half)
  /-- GRP9: eight data bits, least significant first, then the parity bit (R82). -/
  | grp9 (d : Byte) (p : Bool)
  deriving DecidableEq, Repr

end Sys2Proof
end

