-- ==== Sys2Proof/WellFormed.lean ====
section
/-!
DEFINITION. Which instructions a registry gives a header word to (spec/30_encoding.md R95): each check is the
condition its row of the opcode table puts on the code.
-/

namespace Sys2Proof

/-- The condition of the instruction's row of R95 under the registry. Rows with a name of their own come before the
general rows, so that a header word belongs to one row. -/
def Instr.wellFormed (reg : Registry) : Instr → Bool
  | .empty c _ _ => (reg.lookup c).isSentinel
  | .generic _ _ => reg.lookup 0x10 == descGeneric
  | .unknown c _ _ => reg.lookup c == descUnknown
  | .resetApp c _ _ => reg.lookup c == descResetApp
  | .codecRxWParity c _ _ => reg.lookup c == descCodecRxWParity
  | .recEmptyDec c _ _ =>
    (reg.lookup c).kind == .empty && (!(reg.lookup c).isSentinel && reg.lookup c != descResetApp)
  | .recText c _ _ => (reg.lookup c).kind == .text && (!(reg.lookup c).isSentinel && c != 0x10)
  | .recRawHex c _ _ =>
    (reg.lookup c).kind == .rawHex && (!(reg.lookup c).isSentinel && reg.lookup c != descUnknown)
  | .recParHex c _ _ =>
    (reg.lookup c).kind == .parityHex && (!(reg.lookup c).isSentinel && reg.lookup c != descCodecRxWParity)
  | .grp9 _ _ => true

end Sys2Proof
end

