-- ==== Sys2Proof/Decode.lean ====
section
/-!
DEFINITION. Decoding a header and a group, the encoder, and the bit and byte orders both rest on
(spec/30_encoding.md R80 to R82, R92, spec/20_memory.md R53, R54).
-/

namespace Sys2Proof

/-! ### Byte and bit orders -/

/-- The timestamp's bytes are big-endian: the byte at the lower offset is the high one (R53, decision D5). DESIGN
CHOICE of the spec, the one place it is made. Unsafe. See log 13. -/
def tsOfBytes (hi lo : Byte) : Half := hi ++ lo

/-- The byte of the timestamp at the lower offset (R53). -/
def tsHi (ts : Half) : Byte := ts.extractLsb' 8 8
/-- The byte of the timestamp at the higher offset (R53). -/
def tsLo (ts : Half) : Byte := ts.extractLsb' 0 8

/-- `BIT(data, i)` (R134): bit `i mod 8`, from the least significant, of byte `i div 8`. -/
def bitAt (data : List Byte) (i : Nat) : Bool := (data.getD (i / 8) 0).getLsbD (i % 8)

/-- The bit string of a payload, all `8 * n` bits in order (R54). -/
def bitString (data : List Byte) : List Bool := (List.range (8 * data.length)).map (bitAt data)

/-- A byte from its bits, bit `k` at weight `2^k` (R54, R82). -/
def byteOfBits : List Bool → Byte
  | [] => 0
  | b :: bs => (byteOfBits bs <<< 1) ||| (if b then 1 else 0)

/-- Group bits 0 to 7 of group `g`: its data byte (R82, R133). -/
def groupData (data : List Byte) (g : Nat) : Byte :=
  byteOfBits ((List.range 8).map (fun k => bitAt data (9 * g + k)))

/-- Group bit 8 of group `g`: its parity bit (R82, R133). -/
def groupParity (data : List Byte) (g : Nat) : Bool := bitAt data (9 * g + 8)

/-! ### The decoder -/

/-- Why bytes are no record: fewer than four are there (R171). No header is illegal (R94). -/
inductive DecodeError where
  | shortHeader
  deriving DecidableEq, Repr

/-- The row of the opcode table a full header belongs to (R84, R95). The sentinel is recognised by its name before
anything else (R173), then the kind decides, then the name within the kind. See log 11 and log 12. -/
def decodeHeader (reg : Registry) (c len hi lo : Byte) : Instr :=
  if (reg.lookup c).isSentinel then .empty c len (tsOfBytes hi lo)
  else match (reg.lookup c).kind with
    | .empty =>
      if reg.lookup c = descResetApp then .resetApp c len (tsOfBytes hi lo)
      else .recEmptyDec c len (tsOfBytes hi lo)
    | .text => if c = 0x10 then .generic len (tsOfBytes hi lo) else .recText c len (tsOfBytes hi lo)
    | .rawHex =>
      if reg.lookup c = descUnknown then .unknown c len (tsOfBytes hi lo)
      else .recRawHex c len (tsOfBytes hi lo)
    | .parityHex =>
      if reg.lookup c = descCodecRxWParity then .codecRxWParity c len (tsOfBytes hi lo)
      else .recParHex c len (tsOfBytes hi lo)

/-- Decoding at a header position: the instruction and the bytes after its header, total on any bytes (R80, R172);
a tail of fewer than four bytes is rejected by name (R171). -/
def decode (reg : Registry) : List Byte → Except DecodeError (Instr × List Byte)
  | c :: len :: hi :: lo :: rest => .ok (decodeHeader reg c len hi lo, rest)
  | _ => .error .shortHeader

/-- Group `g` of a payload as an instruction (R82, R133). No pattern is illegal (R94). -/
def decodeGroup (data : List Byte) (g : Nat) : Instr := .grp9 (groupData data g) (groupParity data g)

/-- The instruction whose bits are `w`, numbered as the opcode table numbers them. A record is the word `H` of R81,
whose most significant byte is the first in the stream; a group is nine bits, laid out from bit 0 of its first byte
(R54), and the bits above them in its second byte are left-over bits (R60). The registry is the reset state's. -/
def decodeTableWord (nbits w : Nat) : Option Instr :=
  if nbits = 32 then
    match decode Registry.default
        [BitVec.ofNat 8 (w >>> 24), BitVec.ofNat 8 (w >>> 16), BitVec.ofNat 8 (w >>> 8), BitVec.ofNat 8 w] with
    | .ok (i, _) => some i
    | .error _ => none
  else if nbits = 16 ∨ nbits = 9 then
    some (decodeGroup [BitVec.ofNat 8 w, BitVec.ofNat 8 (w >>> 8)] 0)
  else none

/-! ### The encoder -/

/-- A header's four bytes (R80, R81). -/
def encodeHeader (c len : Byte) (ts : Half) : List Byte := [c, len, tsHi ts, tsLo ts]

/-- The words of an instruction: a record's header, or a group at the start of a bit string, padded with zeros
(R82). -/
def encode : Instr → List Byte
  | .empty c len ts => encodeHeader c len ts
  | .generic len ts => encodeHeader 0x10 len ts
  | .unknown c len ts => encodeHeader c len ts
  | .resetApp c len ts => encodeHeader c len ts
  | .codecRxWParity c len ts => encodeHeader c len ts
  | .recEmptyDec c len ts => encodeHeader c len ts
  | .recText c len ts => encodeHeader c len ts
  | .recRawHex c len ts => encodeHeader c len ts
  | .recParHex c len ts => encodeHeader c len ts
  | .grp9 d p => [d, if p then 1 else 0]

end Sys2Proof
end

