-- ==== Sys2Proof/Machine/State.lean ====
section
/-!
DEFINITION. The state of PVR9 (spec/10_state.md R22 to R35), its reset (R41, spec/70_reset_and_hazards.md R240),
and the names a step stops under.
-/

namespace Sys2Proof.Machine

/-- The framing machine's state (R26). -/
inductive Phase where
  /-- `P_HDR`: ready to read the next header at `pos`. -/
  | hdr
  /-- `P_PAY`: header latched, payload not yet read. -/
  | pay
  /-- `P_DEC`: payload latched, decoder not yet run to its end. -/
  | dec
  /-- `P_EMIT`: `dstr` holds the decoded string, entry not yet appended. -/
  | emit
  /-- `P_DONE`: the end of the stream was signalled; terminal. -/
  | done
  /-- `P_FAULT`: a fault was recorded; terminal. -/
  | faulted
  deriving DecidableEq, Repr

/-- Whether PV is walking a payload: the "running" condition of the micro-steps of R147. DESIGN CHOICE: a field of
the model's own. Safe. See log 10. -/
inductive PvRun where
  /-- No `PV.CHECK` is under way. -/
  | idle
  /-- `PV.START` has run and the walk has not ended. -/
  | running
  /-- `PV.CHECK` has returned and its caller has not yet used the result. -/
  | returned
  deriving DecidableEq, Repr

/-- PV's working and result registers (R28 to R32). The counters are naturals whose ranges R22 gives; that they stay
in those ranges is an invariant (log 18). `out` is the whole 226-byte buffer, of which `nout` bytes are the result. -/
structure Pv where
  i : Nat
  one : Nat
  out : List Byte
  nout : Nat
  valid : Bool
  gdone : Nat
  run : PvRun
  deriving DecidableEq, Repr

/-- One element of the output sequence (R33). -/
structure LogEntry where
  eventName : Str
  dataLength : Byte
  timestamp : Half
  deltaTimestamp : Half
  data : Str
  deriving DecidableEq, Repr

/-- The stream `S` (R50): its length, and its bytes other than 0x00, addresses strictly rising. A byte below `size`
that is not listed is 0x00; there is no byte at or above `size`. Each finite byte sequence has one such form. See
log 2. -/
structure Memory where
  cells : List Host.Cell
  size : Nat
  deriving DecidableEq, Repr

/-- The machine's state: the stream and the parameters (R7), and every register of R22. `pay` and `dstr` are the whole
buffers of R25 and R34, of which the first `payN` and `dstrN` elements are in use. -/
structure State where
  stream : Memory
  cfg : Config
  phase : Phase
  pos : Nat
  ev : Byte
  len : Byte
  ts : Half
  pay : List Byte
  payN : Nat
  lastTs : Half
  pv : Pv
  dstr : Str
  dstrN : Nat
  fault : Bool
  faultCode : BitVec 2
  entries : List LogEntry
  deriving DecidableEq, Repr

/-- PV's registers after reset. R41 gives no value. DESIGN CHOICE: zeros. Unsafe. See log 4. -/
def pvReset : Pv :=
  { i := 0, one := 0, out := List.replicate maxGroups 0, nout := 0, valid := false, gdone := 0, run := .idle }

/-- The state after reset under a configuration and with a stream presented (R240, R248): `last_ts`, `pos`, `phase`,
`entries` and `fault` as R41 states; every other register zero. DESIGN CHOICE for those. Unsafe. See log 4. -/
def resetWith (cfg : Config) (stream : Memory) : State :=
  { stream := stream, cfg := cfg, phase := .hdr, pos := 0, ev := 0, len := 0, ts := 0,
    pay := List.replicate maxPayload 0, payN := 0, lastTs := 0, pv := pvReset,
    dstr := List.replicate maxStr 0, dstrN := 0, fault := false, faultCode := 0, entries := [] }

/-- The machine right after reset (R41, R240): the default parameters of R7 and no stream presented yet. See log 5. -/
def State.reset : State := resetWith Config.default { cells := [], size := 0 }

/-- Why a step stops. All three are safe: the model stops where the spec enables no step. -/
inductive Fault where
  /-- Raised by a step in `P_DONE`: the run has ended and no step is enabled (R36, R198). Safe. See log 7. -/
  | runEnded
  /-- Raised by a step in `P_FAULT`: InvalidTextEncoding was recorded and no step is enabled (R36, R198, R213). Safe.
  See log 7. -/
  | invalidTextEncoding
  /-- Raised by `exec`, never by `step`: the instruction is given to the machine in a phase that has no such step
  (R26, R147). Safe. See log 8. -/
  | notEnabled
  deriving DecidableEq, Repr

/-- Why a step has no meaning. Both of the spec's are safe. -/
inductive Refusal where
  /-- An instruction with no meaning yet. No arm uses it. Safe. -/
  | notModelled (mnemonic : String)
  /-- Raised by `step` under a registry that R91 does not allow, and where the host configures the kind value 3 of
  `TEXT_POLICY` (U15: "refuse"). Safe. See log 9. -/
  | illegalConfiguration
  /-- Raised by a PV used alone on an input longer than `PV_MAX_LEN` (D17). Safe. See log 24. -/
  | pvInputTooLong
  deriving DecidableEq, Repr

end Sys2Proof.Machine
end

