-- ==== Sys2Proof/Machine/Ops.lean ====
section
/-!
DEFINITION. The named operations over the stream and the registers (spec/20_memory.md R50 to R55, R62), and the
machine's conditions (spec/60_exceptions.md R210 to R222).
-/

namespace Sys2Proof.Machine

/-- What `step` and the meanings answer. -/
abbrev Result := Host.Outcome State Fault Refusal

/-! ### The stream -/

/-- The byte a list of cells gives an address; 0x00 where none does. -/
def lookupCell (a : Nat) : List Host.Cell → Byte
  | [] => 0#8
  | (b, v) :: cs => if b = a then v else lookupCell a cs

/-- `S[a]` for `a < len(S)` (R50); 0x00 at or above `len(S)`, where no rule reads (R55, R72). -/
def Memory.byteAt (m : Memory) (a : Nat) : Byte := if a < m.size then lookupCell a m.cells else 0#8

/-- A cell put in its place, or taken out where the value is the one an unlisted address reads as. -/
def insertCell (a : Nat) (v : Byte) : List Host.Cell → List Host.Cell
  | [] => if v = 0#8 then [] else [(a, v)]
  | (b, w) :: cs =>
    if a < b then (if v = 0#8 then (b, w) :: cs else (a, v) :: (b, w) :: cs)
    else if a = b then (if v = 0#8 then cs else (a, v) :: cs)
    else (b, w) :: insertCell a v cs

/-- The HOST's write of one byte while it prepares a stream; the machine never writes `S` (R51, R69). A write beyond
the end lengthens the stream, with bytes 0x00 between. DESIGN CHOICE for those bytes. Unsafe. See log 2. -/
def Memory.write (m : Memory) (a : Nat) (v : Byte) : Memory :=
  { cells := insertCell a v m.cells, size := max m.size (a + 1) }

/-- The host's write of consecutive bytes. -/
def Memory.writeBytes (m : Memory) (a : Nat) : List Byte → Memory
  | [] => m
  | v :: vs => Memory.writeBytes (m.write a v) (a + 1) vs

/-- The stream that holds exactly these bytes (R50). -/
def Memory.ofBytes (bytes : List Byte) : Memory := Memory.writeBytes { cells := [], size := 0 } 0 bytes

/-- The canonical form: addresses strictly rising, all of them inside the stream, none listed with 0x00. -/
abbrev Memory.wf (m : Memory) : Prop :=
  List.Pairwise (fun x y : Host.Cell => x.1 < y.1) m.cells ∧ ∀ c ∈ m.cells, c.1 < m.size ∧ c.2 ≠ 0#8

/-- `MemRead(pos, n)` (R55): the `n` bytes from `pos`, or the fewer the stream still has. -/
def Memory.read (m : Memory) (pos n : Nat) : List Byte :=
  (List.range (min n (m.size - pos))).map (fun j => m.byteAt (pos + j))

/-- The new `pos` after `MemRead(pos, n)` (R55). -/
def Memory.after (m : Memory) (pos n : Nat) : Nat := min (pos + n) m.size

/-! ### Buffers and registers -/

/-- A buffer after its first elements are written. The others keep their content, which R25 leaves unspecified and no
rule reads (U14). DESIGN CHOICE. Unsafe. See log 28. -/
def overlay (new old : List Byte) : List Byte := new ++ old.drop new.length

/-- `pay[0 ..< pay_n]` (R25). -/
def State.payload (s : State) : List Byte := s.pay.take s.payN

/-- `dstr[0 ..< dstr_n]` (R34). -/
def State.decoded (s : State) : Str := s.dstr.take s.dstrN

/-- Header latches and `pos` after a full header (R172); the phase is the caller's (R172, R173). -/
def latchHeader (c len : Byte) (ts : Half) (ph : Phase) (s : State) : State :=
  { s with ev := c, len := len, ts := ts, pos := s.stream.after s.pos 4, phase := ph }

/-- The end of the stream at a header that is short (R171): the tail is consumed, the latches are not written. -/
def endShort (s : State) : State := { s with pos := s.stream.size, phase := .done }

/-- The payload read (R174): one request of `len` bytes, fewer at the end of the stream. -/
def readPayload (s : State) : State :=
  { s with pay := overlay (s.stream.read s.pos s.len.toNat) s.pay
           payN := (s.stream.read s.pos s.len.toNat).length
           pos := s.stream.after s.pos s.len.toNat
           phase := .dec }

/-- The decoded string put where the emit phase finds it (R191). -/
def storeString (str : Str) (s : State) : State :=
  { s with dstr := overlay str s.dstr, dstrN := str.length, phase := .emit }

/-! ### Conditions -/

/-- The four conditions (R210). -/
inductive Condition where
  | streamTruncated
  | parityViolation
  | invalidTextEncoding
  | unknownEventCode
  deriving DecidableEq, Repr

/-- The condition's number (R210); only code 2 is ever stored (R35). -/
def Condition.code : Condition → BitVec 2
  | .streamTruncated => 0
  | .parityViolation => 1
  | .invalidTextEncoding => 2
  | .unknownEventCode => 3

/-- What raising a condition does of itself (R220): InvalidTextEncoding, raised under `TEXT_POLICY = fault`, sets the
sticky flag and its code and moves the machine to `P_FAULT` (R213, R191); the others change nothing beyond what
their own rules say (R211, R212, R214). There is no handler, no saved pc and no return (R220, R222). -/
def raise (cond : Condition) (s : State) : State :=
  match cond with
  | .streamTruncated => s
  | .parityViolation => s
  | .invalidTextEncoding => { s with fault := true, faultCode := Condition.code .invalidTextEncoding, phase := .faulted }
  | .unknownEventCode => s

/-! ### Where a step is enabled -/

/-- A record begins in `P_HDR` and nowhere else (R26, R190). In the terminal phases no step is enabled (R36, R198);
in the others a record is under way already, and `step` gives `exec` none. See log 7 and log 8. -/
def atHeader (s : State) (t : State) : Result :=
  match s.phase with
  | .hdr => .next t
  | .pay => .fault .notEnabled
  | .dec => .fault .notEnabled
  | .emit => .fault .notEnabled
  | .done => .fault .runEnded
  | .faulted => .fault .invalidTextEncoding

/-- A group is walked in `P_DEC` while PV is running and has bits left (R147), and nowhere else. See log 8. -/
def atGroup (s : State) (t : State) : Result :=
  match s.phase with
  | .dec => if s.pv.run = .running ∧ s.pv.i < 9 * s.pv.nout then .next t else .fault .notEnabled
  | .hdr => .fault .notEnabled
  | .pay => .fault .notEnabled
  | .emit => .fault .notEnabled
  | .done => .fault .runEnded
  | .faulted => .fault .invalidTextEncoding

end Sys2Proof.Machine
end

