-- ==== Sys2Proof/Machine/Operands.lean ====
section
/-!
DEFINITION. How operands are formed (spec/30_encoding.md R81, R92): the header fields at a stream offset, and the
group count of a payload (spec/41_parity_validator.md R132).
-/

namespace Sys2Proof.Machine

/-- `ev` of a header at offset `p` (R92). -/
def headerCode (m : Memory) (p : Nat) : Byte := m.byteAt p
/-- `len` of a header at offset `p` (R92). -/
def headerLen (m : Memory) (p : Nat) : Byte := m.byteAt (p + 1)
/-- `ts` of a header at offset `p` (R92, R53). -/
def headerTs (m : Memory) (p : Nat) : Half := tsOfBytes (m.byteAt (p + 2)) (m.byteAt (p + 3))

/-- The instruction whose header stands at offset `p` (R81, R95). -/
def instrAt (reg : Registry) (m : Memory) (p : Nat) : Instr :=
  decodeHeader reg (m.byteAt p) (m.byteAt (p + 1)) (m.byteAt (p + 2)) (m.byteAt (p + 3))

/-- `G`: how many groups fit a payload of `n` bytes (R132). -/
def groupCount (n : Nat) : Nat := 8 * n / 9

/-- `bitCount` (R132). -/
def bitCount (n : Nat) : Nat := 9 * (8 * n / 9)

/-- The nine bits of a group in the order they are met (R82). -/
def groupBitList (d : Byte) (p : Bool) : List Bool := (List.range 8).map d.getLsbD ++ [p]

end Sys2Proof.Machine
end

