-- ==== Sys2Proof/Machine/Flags.lean ====
section
/-!
DEFINITION. The flags of R36 (spec/10_state.md) and the tests that set them: the short header (R171), the sentinel
(R173), the parity test (R137).
-/

namespace Sys2Proof.Machine

/-- Fewer than four bytes are left (R171). -/
def isShort (s : State) : Bool := decide (s.stream.size - s.pos < 4)

/-- The code resolves to the name "EMPTY" (R173). -/
def isSentinel (s : State) (c : Byte) : Bool := (s.cfg.registry.lookup c).isSentinel

/-- The parity test of R137 in its general form: a group is bad when the ones of its data bits and its parity bit
together do not have the parity `PAR_ODD` asks for (C1, D3). See log 14. -/
def isViolation (parOdd : Bool) (one : Nat) (p : Bool) : Bool := (one + p.toNat) % 2 != parOdd.toNat

/-- The end-of-stream flag, D11's level `done` (R36). -/
def State.isDone (s : State) : Bool := s.phase == .done

/-- No step is enabled (R36, R198). -/
def Phase.terminal : Phase → Bool
  | .hdr => false
  | .pay => false
  | .dec => false
  | .emit => false
  | .done => true
  | .faulted => true

end Sys2Proof.Machine
end

