-- ==== Sys2Proof/Machine/Parity.lean ====
section
/-!
DEFINITION. The parity validator and repacker PV (spec/41_parity_validator.md): the bit steps R137 and R138, the
walk, `PV.CHECK` (R136), and the closed form of R141 and R144.
-/

namespace Sys2Proof.Machine

/-- The data-bit step (R138): count the bit and OR it into its place in output byte `i div 9`. -/
def pvDataBit (b : Bool) (pv : Pv) : Pv :=
  { pv with one := pv.one + b.toNat
            out := pv.out.modify (pv.i / 9) (fun o => o ||| ((if b then (1 : Byte) else 0) <<< (pv.i % 9)))
            i := pv.i + 1 }

/-- The parity-bit step (R137); on a violation PV returns with `valid = 0`, and `pv_i`, `pv_one`, the buffer and
`pv_gdone` are left as they stand (R139). See log 15. -/
def pvParityBit (parOdd : Bool) (p : Bool) (pv : Pv) : Pv :=
  if isViolation parOdd pv.one p then { pv with valid := false, run := .returned }
  else { pv with one := 0, gdone := pv.gdone + 1, i := pv.i + 1 }

/-- One iteration of the walk: the place in the group decides which of the two steps it is (R133). -/
def pvBit (parOdd : Bool) (b : Bool) (pv : Pv) : Pv :=
  if pv.i % 9 = 8 then pvParityBit parOdd b pv else pvDataBit b pv

/-- The walk over bits in ascending order (R134), until PV has returned (R139). -/
def pvWalk (parOdd : Bool) : List Bool → Pv → Pv
  | [], pv => pv
  | b :: bs, pv =>
    match pv.run with
    | .running => pvWalk parOdd bs (pvBit parOdd b pv)
    | .idle => pv
    | .returned => pv

/-- `PV.START` (R147): the pass-through of a one-byte input, which returns at once and writes the four registers R130
names (log 23), or the initialisation of R132 and R135. -/
def pvStart (data : List Byte) (pv : Pv) : Pv :=
  if data.length = 1 then
    { pv with out := overlay data pv.out, nout := 1, valid := true, gdone := 0, run := .returned }
  else
    { pv with i := 0, one := 0, gdone := 0
              nout := groupCount data.length
              out := overlay (List.replicate (groupCount data.length) 0) pv.out
              run := .running }

/-- `PV.FINISH` (R140, R147): every bit walked and no violation met. -/
def pvFinish (pv : Pv) : Pv :=
  match pv.run with
  | .running => { pv with valid := true, run := .returned }
  | .idle => pv
  | .returned => pv

/-- `PV.CHECK(data)` (R136) on PV's registers. -/
def pvCheck (parOdd : Bool) (data : List Byte) (pv : Pv) : Pv :=
  pvFinish (pvWalk parOdd ((bitString data).take (bitCount data.length)) (pvStart data pv))

/-- `pv_out[0 ..< pv_nout]` (R30). -/
def Pv.unpacked (pv : Pv) : List Byte := pv.out.take pv.nout

/-- `PV.CHECK(data) -> (valid, unpacked)` (R131), a function of the data and the parity sense. -/
def checkResult (parOdd : Bool) (data : List Byte) : Bool × List Byte :=
  ((pvCheck parOdd data pvReset).valid, (pvCheck parOdd data pvReset).unpacked)

/-- One group through PV: the bits from PV's place in the group to the group's end (R133, R137, R138). At the start of
a group these are all nine. See log 22. -/
def pvGroup (parOdd : Bool) (d : Byte) (p : Bool) (pv : Pv) : Pv :=
  pvWalk parOdd ((groupBitList d p).drop (pv.i % 9)) pv

/-- GRP9: a group walked by a running PV (R137, R147). See log 10. -/
def execGrp9 (d : Byte) (p : Bool) (s : State) : Result :=
  atGroup s { s with pv := pvGroup s.cfg.parOdd d p s.pv }

/-! ### The result without the walk -/

/-- The data byte of group `g` by shifts (R141). -/
def closedData (data : List Byte) (g : Nat) : Byte :=
  (data.getD (g + g / 8) 0 >>> (g % 8)) ||| (data.getD (g + g / 8 + 1) 0 <<< (8 - g % 8))

/-- The parity bit of group `g` by shifts (R141). -/
def closedParity (data : List Byte) (g : Nat) : Bool := (data.getD (g + g / 8 + 1) 0).getLsbD (g % 8)

/-- `popcount8` (R9). -/
def popcount8 (v : Byte) : Nat := ((List.range 8).map (fun k => (v.getLsbD k).toNat)).sum

/-- `ok_g` (R144). -/
def groupOk (parOdd : Bool) (data : List Byte) (g : Nat) : Bool :=
  (popcount8 (closedData data g) + (closedParity data g).toNat) % 2 == parOdd.toNat

/-- `f` of R144: the least bad group, if there is one. -/
def firstBad (parOdd : Bool) (data : List Byte) : Option Nat :=
  (List.range (groupCount data.length)).find? (fun g => !groupOk parOdd data g)

/-- The result of R144 for an input of any length, with R130 for length 1. -/
def closedResult (parOdd : Bool) (data : List Byte) : Bool × List Byte :=
  if data.length = 1 then (true, data)
  else match firstBad parOdd data with
    | none => (true, (List.range (groupCount data.length)).map (closedData data))
    | some f =>
      (false, (List.range (f + 1)).map (closedData data) ++ List.replicate (groupCount data.length - (f + 1)) 0)

end Sys2Proof.Machine
end

