-- ==== Sys2Proof/Machine/Decoders.lean ====
section
/-!
DEFINITION. The four decoders and their helpers (spec/40_decoders.md R110 to R118).
-/

namespace Sys2Proof.Machine

/-- What a decoder answers: a string, or InvalidTextEncoding with the index and the byte R112's `raise` names, which
no register holds (R213). -/
inductive DecodeResult where
  | str (s : Str)
  | invalidText (j : Nat) (b : Byte)
  deriving DecidableEq, Repr

/-- A character before a decoder's answer. -/
def DecodeResult.cons (c : Byte) : DecodeResult → DecodeResult
  | .str s => .str (c :: s)
  | .invalidText j b => .invalidText j b

/-- `DIGIT(v)` for a value 0 to 15 (R116, R117). -/
def hexDigit (v : Byte) : Byte := if v.toNat ≤ 9 then 0x30 + v else 0x61 + (v - 10)

/-- `HEX(bytes)` (R116): the high nibble's digit first (R56). -/
def hex : List Byte → Str
  | [] => []
  | b :: bs => hexDigit (b >>> 4) :: hexDigit (b &&& 0x0F) :: hex bs

/-- `DEC.EMPTY` (R111). -/
def decEmpty (_payload : List Byte) : DecodeResult := .str []

/-- `DEC.TEXT` (R112) from index `j` on: bytes up to 0x7F are copied, the policy decides on the others. See log 19. -/
def decTextFrom (policy : TextPolicy) : Nat → List Byte → DecodeResult
  | _, [] => .str []
  | j, b :: bs =>
    if b.toNat ≤ 0x7F then DecodeResult.cons b (decTextFrom policy (j + 1) bs)
    else match policy with
      | .fault => .invalidText j b
      | .replace c => DecodeResult.cons (c.setWidth 8) (decTextFrom policy (j + 1) bs)
      | .passthrough => DecodeResult.cons b (decTextFrom policy (j + 1) bs)

/-- `DEC.TEXT` (R112). -/
def decText (policy : TextPolicy) (payload : List Byte) : DecodeResult := decTextFrom policy 0 payload

/-- `DEC.RAWHEX` (R113). -/
def decRawHex (payload : List Byte) : DecodeResult := .str (hex payload)

/-- The string of `DEC.PARHEX` once PV has returned (R114): the marker `!` is character 0x21 (R117). -/
def parHexString (pv : Pv) : Str := if pv.valid then hex pv.unpacked else hex pv.unpacked ++ [0x21]

/-- `DEC.PARHEX` (R114) as a function of the payload. -/
def decParHex (parOdd : Bool) (payload : List Byte) : DecodeResult :=
  .str (if (checkResult parOdd payload).1 then hex (checkResult parOdd payload).2
        else hex (checkResult parOdd payload).2 ++ [0x21])

/-- `DECODE(kind, payload)` (R110). -/
def decodeString (cfg : Config) (kind : DecoderKind) (payload : List Byte) : DecodeResult :=
  match kind with
  | .empty => decEmpty payload
  | .text => decText cfg.textPolicy payload
  | .rawHex => decRawHex payload
  | .parityHex => decParHex cfg.parOdd payload

/-- The end of the decode phase on a decoder's answer (R191). -/
def finishDecode (r : DecodeResult) (s : State) : State :=
  match r with
  | .str str => storeString str s
  | .invalidText _ _ => raise .invalidTextEncoding s

/-- `DEC.PARHEX` after PV has returned: the ParityViolation condition where a group failed (R212), the string, and PV
idle again (log 10). -/
def renderParity (s : State) : State :=
  storeString (parHexString s.pv)
    (if s.pv.valid then { s with pv := { s.pv with run := .idle } }
     else raise .parityViolation { s with pv := { s.pv with run := .idle } })

/-- The decode phase for a kind (R191, R110), `PV.CHECK` as one action (R147). -/
def decodeAs (kind : DecoderKind) (s : State) : State :=
  match kind with
  | .empty => finishDecode (decEmpty s.payload) s
  | .text => finishDecode (decText s.cfg.textPolicy s.payload) s
  | .rawHex => finishDecode (decRawHex s.payload) s
  | .parityHex => renderParity { s with pv := pvCheck s.cfg.parOdd s.payload s.pv }

end Sys2Proof.Machine
end

