-- ==== Sys2Proof/Machine/Log.lean ====
section
/-!
DEFINITION. The record reader (spec/42_record_reader.md) and the log decoder (spec/43_log_decoder.md) as operations:
`RR.NEXT`, `TS.DELTA`, the emit step, `LD.STEP`, `LD.RUN`.
-/

namespace Sys2Proof.Machine

/-- `TS.DELTA(ts, last)` (R193): the subtraction is over the integers, corrected by 65536 where it is negative. -/
def tsDelta (ts last : Half) : Half :=
  if last.toNat ≤ ts.toNat then BitVec.ofNat 16 (ts.toNat - last.toNat)
  else BitVec.ofNat 16 (65536 - last.toNat + ts.toNat)

/-- The entry of the record in the latches and `dstr` (R33, R192). `dataLength` is the header's `len` (D9, log 16). -/
def entryOf (s : State) : LogEntry :=
  { eventName := (s.cfg.registry.lookup s.ev).name
    dataLength := s.len
    timestamp := s.ts
    deltaTimestamp := tsDelta s.ts s.lastTs
    data := s.decoded }

/-- The emit step (R192). -/
def emitEntry (s : State) : State :=
  { s with lastTs := s.ts, entries := s.entries ++ [entryOf s], phase := .hdr }

/-- The emit step where the decoder gave a string; a record that faulted has none (R191, R192). -/
def emitIfDecoded (s : State) : State := if s.phase = .emit then emitEntry s else s

/-- What `RR.NEXT` answers (R170), with the machine's state after it. -/
inductive ReadResult where
  | record (s : State)
  | endOfStream (s : State)
  deriving DecidableEq, Repr

/-- `RR.NEXT` (R175): the length test, then the sentinel test, then the payload. -/
def rrNext (s : State) : ReadResult :=
  if isShort s then .endOfStream (endShort s)
  else if isSentinel s (headerCode s.stream s.pos) then
    .endOfStream (latchHeader (headerCode s.stream s.pos) (headerLen s.stream s.pos) (headerTs s.stream s.pos) .done s)
  else
    .record (readPayload
      (latchHeader (headerCode s.stream s.pos) (headerLen s.stream s.pos) (headerTs s.stream s.pos) .pay s))

/-- The decode phase by the registry's kind for `ev` (R191). -/
def decodeByRegistry (s : State) : State := decodeAs (s.cfg.registry.lookup s.ev).kind s

/-- `LD.STEP` (R190) from `P_HDR`, driven by the registry and not by a decoded instruction. -/
def ldStep (s : State) : State :=
  match rrNext s with
  | .endOfStream t => t
  | .record t => emitIfDecoded (decodeByRegistry t)

/-- `LD.RUN` (R196), at most `k` records. -/
def ldRun : Nat → State → State
  | 0, s => s
  | k + 1, s => if s.phase.terminal then s else ldRun k (ldStep s)

end Sys2Proof.Machine
end

