-- ==== Sys2Proof/Machine/Records.lean ====
section
/-!
DEFINITION. The meanings of the nine record kinds (spec/30_encoding.md R95, spec/43_log_decoder.md R190).
-/

namespace Sys2Proof.Machine

/-- A record that is no sentinel, from its latched header to its entry: payload, decode, emit (R190 steps 2 to 6).
See log 6. -/
def recordBody (kind : DecoderKind) (c len : Byte) (ts : Half) (s : State) : State :=
  emitIfDecoded (decodeAs kind (readPayload (latchHeader c len ts .pay s)))

/-- EMPTY: the sentinel (R173). The header is consumed and latched, its length and timestamp are ignored, no payload
is read, no entry is made, `last_ts` stays. -/
def execEmpty (c len : Byte) (ts : Half) (s : State) : Result := atHeader s (latchHeader c len ts .done s)

/-- GENERIC: code 0x10, decoded by Text (R87, R112, R190). -/
def execGeneric (len : Byte) (ts : Half) (s : State) : Result := atHeader s (recordBody .text 0x10 len ts s)

/-- UNKNOWN: decoded by RawHex; the condition UnknownEventCode is no error (R89, R113, R190, R214). -/
def execUnknown (c len : Byte) (ts : Half) (s : State) : Result :=
  atHeader s (recordBody .rawHex c len ts (raise .unknownEventCode s))

/-- RESET_APP: decoded by Empty; the payload is read and ignored (R90, R111, R190). -/
def execResetApp (c len : Byte) (ts : Half) (s : State) : Result := atHeader s (recordBody .empty c len ts s)

/-- CODEC_RX_W_PARITY: decoded by ParityHex (R90, R114, R190). -/
def execCodecRxWParity (c len : Byte) (ts : Half) (s : State) : Result :=
  atHeader s (recordBody .parityHex c len ts s)

/-- REC.EMPTYDEC: any code of kind Empty (R95, R111). -/
def execRecEmptyDec (c len : Byte) (ts : Half) (s : State) : Result := atHeader s (recordBody .empty c len ts s)

/-- REC.TEXT: any code of kind Text (R95, R112). -/
def execRecText (c len : Byte) (ts : Half) (s : State) : Result := atHeader s (recordBody .text c len ts s)

/-- REC.RAWHEX: any code of kind RawHex (R95, R113). -/
def execRecRawHex (c len : Byte) (ts : Half) (s : State) : Result := atHeader s (recordBody .rawHex c len ts s)

/-- REC.PARHEX: any code of kind ParityHex (R95, R114). -/
def execRecParHex (c len : Byte) (ts : Half) (s : State) : Result := atHeader s (recordBody .parityHex c len ts s)

end Sys2Proof.Machine
end

