-- ==== Sys2Proof/Machine/Phases.lean ====
section
/-!
DEFINITION. The smallest steps of the framing machine (spec/10_state.md R26), PV's among them (R147), each from its
own phase. `step` merges those of one record; these are what it merges.
-/

namespace Sys2Proof.Machine

/-- From `P_HDR` (R171, R172, R173). -/
def headerPhase (s : State) : State :=
  if isShort s then endShort s
  else latchHeader (headerCode s.stream s.pos) (headerLen s.stream s.pos) (headerTs s.stream s.pos)
    (if isSentinel s (headerCode s.stream s.pos) then .done else .pay) s

/-- From `P_PAY` (R174). -/
def payloadPhase (s : State) : State := readPayload s

/-- From `P_DEC` with no decoder begun (R191): the three kinds that finish at once, or `PV.START` (R147). -/
def decodePhase (s : State) : State :=
  match (s.cfg.registry.lookup s.ev).kind with
  | .empty => decodeAs .empty s
  | .text => decodeAs .text s
  | .rawHex => decodeAs .rawHex s
  | .parityHex => { s with pv := pvStart s.payload s.pv }

/-- From `P_DEC` with PV running and a bit left: `PV.DATABIT` or `PV.PARBIT` on that bit of the payload (R147). -/
def bitPhase (s : State) : State :=
  { s with pv := pvBit s.cfg.parOdd (bitAt s.payload s.pv.i) s.pv }

/-- From `P_DEC` with PV running and no bit left: `PV.FINISH` (R147). -/
def finishPhase (s : State) : State := { s with pv := pvFinish s.pv }

/-- From `P_DEC` with PV returned: the rest of `DEC.PARHEX` (R114, R191). -/
def renderPhase (s : State) : State := renderParity s

/-- From `P_EMIT` (R192). -/
def emitPhase (s : State) : State := emitEntry s

/-- The group PV walks next (R133): the group its bit index stands in. -/
def nextGroup (s : State) : Instr := decodeGroup s.payload (s.pv.i / 9)

end Sys2Proof.Machine
end

