-- ==== Sys2Proof/Machine/Dispatch.lean ====
section
/-!
DEFINITION. One arm per instruction of the opcode table (spec/30_encoding.md R95).
-/

namespace Sys2Proof.Machine

def exec (i : Instr) (s : State) : Host.Outcome State Fault Refusal :=
  match i with
  | .empty c len ts => Sys2Proof.Machine.execEmpty c len ts s
  | .generic len ts => Sys2Proof.Machine.execGeneric len ts s
  | .unknown c len ts => Sys2Proof.Machine.execUnknown c len ts s
  | .resetApp c len ts => Sys2Proof.Machine.execResetApp c len ts s
  | .codecRxWParity c len ts => Sys2Proof.Machine.execCodecRxWParity c len ts s
  | .recEmptyDec c len ts => Sys2Proof.Machine.execRecEmptyDec c len ts s
  | .recText c len ts => Sys2Proof.Machine.execRecText c len ts s
  | .recRawHex c len ts => Sys2Proof.Machine.execRecRawHex c len ts s
  | .recParHex c len ts => Sys2Proof.Machine.execRecParHex c len ts s
  | .grp9 d p => Sys2Proof.Machine.execGrp9 d p s

end Sys2Proof.Machine
end

