-- ==== Sys2Proof/Machine/Step.lean ====
section
/-!
DEFINITION. One step of the machine (spec/10_state.md R26, spec/43_log_decoder.md R190). In `P_HDR` a step is one
record, whole (log 6); in the phases inside a record it is that phase's smallest step; in the terminal phases none is
enabled (log 7).
-/

namespace Sys2Proof.Machine

/-- A step in `P_DEC` (R147, R191): while PV runs, one group is one step. -/
def stepDecode (s : State) : Host.Outcome State Fault Refusal :=
  match s.pv.run with
  | .idle => .next (decodePhase s)
  | .running => if s.pv.i < 9 * s.pv.nout then exec (nextGroup s) s else .next (finishPhase s)
  | .returned => .next (renderPhase s)

/-- A step in `P_HDR`: fetch four bytes, decode them, run the record (R170, R172, R190). -/
def stepRecord (s : State) : Host.Outcome State Fault Refusal :=
  match decode s.cfg.registry (s.stream.read s.pos 4) with
  | .ok (i, _) => exec i s
  | .error .shortHeader => .next (endShort (raise .streamTruncated s))

/-- The machine's step. An illegal configuration has no meaning (U15, log 9). -/
def step (s : State) : Host.Outcome State Fault Refusal :=
  if s.cfg.legal then
    match s.phase with
    | .hdr => stepRecord s
    | .pay => .next (payloadPhase s)
    | .dec => stepDecode s
    | .emit => .next (emitPhase s)
    | .done => .fault .runEnded
    | .faulted => .fault .invalidTextEncoding
  else .refused .illegalConfiguration

/-- The smallest step in `P_DEC`: while PV runs, one bit is one step (R147). -/
def microDecode (s : State) : Host.Outcome State Fault Refusal :=
  match s.pv.run with
  | .idle => .next (decodePhase s)
  | .running => if s.pv.i < 9 * s.pv.nout then .next (bitPhase s) else .next (finishPhase s)
  | .returned => .next (renderPhase s)

/-- The machine at its finest grain: as `step`, but a header is a step of its own (R26, R172) and so is each bit that
PV walks (R147). -/
def microStep (s : State) : Host.Outcome State Fault Refusal :=
  if s.cfg.legal then
    match s.phase with
    | .hdr => .next (headerPhase s)
    | .pay => .next (payloadPhase s)
    | .dec => microDecode s
    | .emit => .next (emitPhase s)
    | .done => .fault .runEnded
    | .faulted => .fault .invalidTextEncoding
  else .refused .illegalConfiguration

/-- `s` with the instruction of the table word `w` as what `step` runs next. A record's header is written into the
stream at `pos`, followed by a payload of zeros, and the machine stands in `P_HDR`. A group is bit string of two
bytes in the payload buffer, and PV has been started on it (R147). See log 5 and log 26. -/
def State.withFetchWord (s : State) (nbits w : Nat) : State :=
  if nbits = 32 then
    { s with
      phase := .hdr
      stream := (s.stream.writeBytes s.pos
        [BitVec.ofNat 8 (w >>> 24), BitVec.ofNat 8 (w >>> 16), BitVec.ofNat 8 (w >>> 8), BitVec.ofNat 8 w]).writeBytes
        (s.pos + 4) (List.replicate maxPayload 0) }
  else if nbits = 16 ∨ nbits = 9 then
    { s with
      phase := .dec
      pay := overlay [BitVec.ofNat 8 w, BitVec.ofNat 8 (w >>> 8)] s.pay
      payN := 2
      pv := pvStart [BitVec.ofNat 8 w, BitVec.ofNat 8 (w >>> 8)] s.pv }
  else s

end Sys2Proof.Machine
end

