-- ==== Sys2Proof/Machine/Pack.lean ====
section
/-!
DEFINITION. `PACK`, the inverse of PV that the spec gives as a test aid (spec/41_parity_validator.md R150), and the
flipping of a bit of a bit string (R152).
-/

namespace Sys2Proof.Machine

/-- `p_g`: the parity bit that makes a data byte's group pass (R150). -/
def parityBitFor (parOdd : Bool) (d : Byte) : Bool := (popcount8 d + parOdd.toNat) % 2 == 1

/-- The `9 * N` bits of the packed string (R150). -/
def packBits (parOdd : Bool) (d : List Byte) : List Bool :=
  d.flatMap (fun b => groupBitList b (parityBitFor parOdd b))

/-- Byte `j` of a bit string whose missing bits are 0 (R54, R150). -/
def byteOfString (bits : List Bool) (j : Nat) : Byte :=
  byteOfBits ((List.range 8).map (fun k => bits.getD (8 * j + k) false))

/-- `PACK(d)` (R150), of length `ceil(9N / 8)`. -/
def pack (parOdd : Bool) (d : List Byte) : List Byte :=
  (List.range ((9 * d.length + 7) / 8)).map (byteOfString (packBits parOdd d))

/-- A byte string with one bit of its bit string flipped (R152). -/
def flipBit (data : List Byte) (i : Nat) : List Byte :=
  data.modify (i / 8) (fun b => b ^^^ ((1 : Byte) <<< (i % 8)))

end Sys2Proof.Machine
end

