-- ==== Sys2Proof/Machine/Serial.lean ====
section
/-!
DEFINITION. The record reader that takes the stream one byte at a time (spec/42_record_reader.md R176). Its counters are
not architectural (D13), so they stand beside the state and not in it. See log 27.
-/

namespace Sys2Proof.Machine

/-- A machine whose reader is byte-serial: the header bytes taken so far (R176's header byte counter is their number,
0 to 3) and the down-counter of the payload phase. -/
structure SerialReader where
  mach : State
  header : List Byte
  left : Nat
  deriving DecidableEq, Repr

/-- The number of header bytes taken, R176's 2-bit counter. -/
def SerialReader.headerCount (r : SerialReader) : Nat := r.header.length

/-- A reader at the start of a header. -/
def SerialReader.start (s : State) : SerialReader := { mach := s, header := [], left := 0 }

/-- The source signals that it is exhausted (R176, D11). -/
def SerialReader.exhausted (r : SerialReader) : Bool := decide (r.mach.stream.size ≤ r.mach.pos)

/-- The fourth header byte has come: the latches are written, and the down-counter is loaded from `len` (R172, R176). -/
def SerialReader.latch (r : SerialReader) (c len hi lo : Byte) : SerialReader :=
  { mach := { r.mach with
      ev := c, len := len, ts := tsOfBytes hi lo, pos := r.mach.pos + 1
      payN := if isSentinel r.mach c then r.mach.payN else 0
      phase := if isSentinel r.mach c then .done else .pay }
    header := []
    left := len.toNat }

/-- One header byte taken, or the end of the stream where none is left (R171, R176). -/
def SerialReader.headerByte (r : SerialReader) : SerialReader :=
  if r.exhausted then { r with mach := endShort r.mach, header := [] }
  else match r.header with
    | [c, len, hi] => r.latch c len hi (r.mach.stream.byteAt r.mach.pos)
    | _ => { r with mach := { r.mach with pos := r.mach.pos + 1 }
                    header := r.header ++ [r.mach.stream.byteAt r.mach.pos] }

/-- One payload byte stored, or the end of the payload phase where the counter is 0 or the source exhausted (R176). -/
def SerialReader.payloadByte (r : SerialReader) : SerialReader :=
  if r.left = 0 ∨ r.exhausted = true then { r with mach := { r.mach with phase := .dec } }
  else
    { r with
      mach := { r.mach with pay := r.mach.pay.set r.mach.payN (r.mach.stream.byteAt r.mach.pos)
                            payN := r.mach.payN + 1
                            pos := r.mach.pos + 1 }
      left := r.left - 1 }

/-- One step of the byte-serial reader; outside the reading phases it waits. -/
def SerialReader.step (r : SerialReader) : SerialReader :=
  match r.mach.phase with
  | .hdr => r.headerByte
  | .pay => r.payloadByte
  | .dec => r
  | .emit => r
  | .done => r
  | .faulted => r

/-- `n` steps of the byte-serial reader. -/
def SerialReader.run : Nat → SerialReader → SerialReader
  | 0, r => r
  | n + 1, r => SerialReader.run n r.step

/-- The state in `RR.NEXT`'s answer (R170). -/
def ReadResult.state : ReadResult → State
  | .record s => s
  | .endOfStream s => s

end Sys2Proof.Machine
end

