-- ==== Sys2Proof/Machine/HostPort.lean ====
section
/-!
DEFINITION. What the host can do to the machine and see of it (spec/70_reset_and_hazards.md R240 to R250,
spec/92_eei_decisions.md D11, D17, D19). The host has no move during a run (R246).
-/

namespace Sys2Proof.Machine

/-- The reset input (R240), at any time: every register as R41 leaves it. The parameters and the stream are no registers
of the block and stay. See log 25. -/
def resetInput (s : State) : State := resetWith s.cfg s.stream

/-- The host fixes the configuration before launch (R244, R248). -/
def configure (cfg : Config) (s : State) : State := { s with cfg := cfg }

/-- The same by the fields of R37: `PAR_ODD`, the kind and the character of `TEXT_POLICY`. The kind value 3 is not a
legal configuration and is refused (U15). See log 9. -/
def configureFields (parOdd : BitVec 1) (kind : BitVec 2) (c : BitVec 7) (registry : Registry) (pvMaxLen : Nat)
    (s : State) : Result :=
  match TextPolicy.ofFields kind c with
  | some policy =>
    .next (configure { parOdd := parOdd == 1, textPolicy := policy, registry := registry, pvMaxLen := pvMaxLen } s)
  | none => .refused .illegalConfiguration

/-- The host presents a stream (R245, R248). -/
def present (bytes : List Byte) (s : State) : State := { s with stream := Memory.ofBytes bytes }

/-- A launch: configure, reset, present (R241, R248). -/
def launch (cfg : Config) (bytes : List Byte) (s : State) : State :=
  present bytes (resetInput (configure cfg s))

/-- What the host reads at the end of a run (R250); `none` before it. -/
def readEntries (s : State) : Option (List LogEntry) := if s.phase.terminal then some s.entries else none

/-- The output levels of D11: `done`, `fault`, `fault_code`. -/
def outputLevels (s : State) : Bool × Bool × BitVec 2 := (s.isDone, s.fault, s.faultCode)

/-- PV used alone (R96, R131): an instance refuses an input longer than its bound (D17). See log 24. -/
def pvAlone (cfg : Config) (data : List Byte) (pv : Pv) : Host.Outcome Pv Fault Refusal :=
  if data.length ≤ cfg.pvMaxLen then .next (pvCheck cfg.parOdd data pv) else .refused .pvInputTooLong

end Sys2Proof.Machine
end

