-- ==== Sys2Proof/Safety.lean ====
section
/-!
DEFINITION. What claims are stated in: the launch premises (spec/70_reset_and_hazards.md R249), the invariant of
spec/10_state.md R43, the ranges of R22, the ends of a run (spec/43_log_decoder.md R198), and runs of small steps.
-/

namespace Sys2Proof.Machine

/-- `CleanEntry` (R249): the state of R240, under its own parameters and stream. -/
def State.CleanEntry (s : State) : Prop := s = resetInput s

/-- `WellFormedConfig` (R249). -/
def State.WellFormedConfig (s : State) : Prop := s.cfg.legal = true

/-- The good end of a run (R198). -/
def State.GoodEnd (s : State) : Prop := s.phase = .done ∧ s.fault = false

/-- A record is under way: its header is latched and its entry not yet appended (R26). -/
def Phase.inRecord : Phase → Bool
  | .hdr => false
  | .pay => true
  | .dec => true
  | .emit => true
  | .done => false
  | .faulted => false

/-- The payload of the record under way has been read (R26). -/
def Phase.hasPayload : Phase → Bool
  | .hdr => false
  | .pay => false
  | .dec => true
  | .emit => true
  | .done => false
  | .faulted => false

/-- R43, clause by clause. Its last clause, the range of `deltaTimestamp`, holds by the field's type. -/
structure State.Inv (s : State) : Prop where
  posInStream : s.pos ≤ s.stream.size
  notSentinel : s.phase.inRecord = true → (s.cfg.registry.lookup s.ev).isSentinel = false
  payloadShort : s.phase.hasPayload = true → s.payN ≤ s.len.toNat
  payloadRead : s.phase.hasPayload = true → s.payN ≤ s.pos ∧ s.payload = s.stream.read (s.pos - s.payN) s.payN
  faultIff : s.fault = true ↔ s.phase = .faulted
  lastTs : s.lastTs = (s.entries.getLast?.map LogEntry.timestamp).getD 0

/-- PV's registers are in the ranges of R22, and while PV runs they stand where R147's walk has them. -/
structure Pv.InRange (pv : Pv) : Prop where
  i : pv.i ≤ 2034
  one : pv.one ≤ 8
  buffer : pv.out.length = 226
  nout : pv.nout ≤ 226
  gdone : pv.gdone ≤ pv.nout
  running : pv.run = .running → pv.one ≤ pv.i % 9 ∧ pv.gdone = pv.i / 9 ∧ pv.i ≤ 9 * pv.nout

/-- Every register is in the range R22 gives it, the stream is in its canonical form, and PV is at work in `P_DEC` only
(R147). -/
structure State.InRange (s : State) : Prop where
  stream : s.stream.wf
  pay : s.pay.length = 255
  payN : s.payN ≤ 255
  pv : s.pv.InRange
  pvPhase : s.pv.run = .idle ∨ s.phase = .dec
  dstr : s.dstr.length = 510
  dstrN : s.dstrN ≤ 510
  faultCode : s.fault = true → s.faultCode = 2

/-- The payload bytes a record with this length will read when its header stands at `pos` (R172, R174). -/
def State.nextPayload (s : State) (len : Byte) : List Byte :=
  s.stream.read (min (s.pos + 4) s.stream.size) len.toNat

/-- `pos` after that record (R172, R174). -/
def State.nextPos (s : State) (len : Byte) : Nat :=
  min (min (s.pos + 4) s.stream.size + len.toNat) s.stream.size

/-- What a record that makes an entry does, PV's registers apart (R172, R174, R191, R192): latches, payload, `pos`, the
decoded string, `last_ts` and one entry; the stream, the parameters and the fault registers stay. `payRest` and
`dstrRest`, what lies beyond the used part of a buffer, are the model's choice (R25 leaves it unspecified; log 28). -/
structure RecordDone (s t : State) (c n : Byte) (τ : Half) (data : Str) : Prop where
  ev : t.ev = c
  len : t.len = n
  ts : t.ts = τ
  payN : t.payN = (s.nextPayload n).length
  payload : t.payload = s.nextPayload n
  payRest : t.pay.drop t.payN = s.pay.drop t.payN
  pos : t.pos = s.nextPos n
  phase : t.phase = .hdr
  lastTs : t.lastTs = τ
  dstrN : t.dstrN = data.length
  decoded : t.decoded = data
  dstrRest : t.dstr.drop t.dstrN = s.dstr.drop t.dstrN
  entries : t.entries = s.entries ++
    [{ eventName := (s.cfg.registry.lookup c).name, dataLength := n, timestamp := τ,
       deltaTimestamp := τ - s.lastTs, data := data }]
  stream : t.stream = s.stream
  cfg : t.cfg = s.cfg
  fault : t.fault = s.fault
  faultCode : t.faultCode = s.faultCode

/-- What a Text record that meets InvalidTextEncoding does (R191, R213, R220): the record is read, the fault is
recorded, and nothing else changes. `payRest` is the model's choice (R25 leaves it unspecified; log 28). -/
structure RecordFaulted (s t : State) (c n : Byte) (τ : Half) : Prop where
  fault : t.fault = true
  faultCode : t.faultCode = 2
  phase : t.phase = .faulted
  ev : t.ev = c
  len : t.len = n
  ts : t.ts = τ
  payN : t.payN = (s.nextPayload n).length
  payload : t.payload = s.nextPayload n
  payRest : t.pay.drop t.payN = s.pay.drop t.payN
  pos : t.pos = s.nextPos n
  lastTs : t.lastTs = s.lastTs
  entries : t.entries = s.entries
  dstr : t.dstr = s.dstr
  dstrN : t.dstrN = s.dstrN
  pv : t.pv = s.pv
  stream : t.stream = s.stream
  cfg : t.cfg = s.cfg

/-- The sum of the deltas of the entries, modulo 65536 (R195). -/
def deltaSum (es : List LogEntry) : Half := (es.map LogEntry.deltaTimestamp).sum

/-- `n` of the smallest steps. -/
def microRun : Nat → State → Result
  | 0, s => .next s
  | n + 1, s =>
    match microStep s with
    | .next t => microRun n t
    | .fault r => .fault r
    | .refused r => .refused r

end Sys2Proof.Machine
end

