-- ==== Sys2Proof/Certificates/Slice0/Obligations.lean ====
section
/-!
DEFINITION. The statements for the provers: what the numbered rules of spec/ say of the machine, over all states and
operands. Listed in OBLIGATIONS.json.
-/

open Sys2Proof Sys2Proof.Machine

/-! ## Encodings -/

/-- R80, R81, R95: the header of a well-formed record decodes to that record, whatever follows it. -/
def Obligations.RecordHeadersRoundTrip : Prop :=
  ∀ (reg : Registry) (i : Instr) (rest : List Byte),
    i.wellFormed reg = true → (∀ d p, i ≠ .grp9 d p) → decode reg (encode i ++ rest) = .ok (i, rest)

/-- R82: a group laid out as a bit string decodes to that group, whatever follows it. -/
def Obligations.GroupsRoundTrip : Prop :=
  ∀ (d : Byte) (p : Bool) (rest : List Byte), decodeGroup (encode (.grp9 d p) ++ rest) 0 = .grp9 d p

/-- R94: under a legal registry every four header bytes are a well-formed record, and no bit of them is dropped. -/
def Obligations.EveryHeaderIsARecord : Prop :=
  ∀ (reg : Registry) (c len hi lo : Byte) (rest : List Byte), reg.legal = true →
    ∃ i, decode reg (c :: len :: hi :: lo :: rest) = .ok (i, rest) ∧ i.wellFormed reg = true ∧
      encode i = [c, len, hi, lo]

/-- R81, R82, R86, R87, R88: words written out from the encoding tables decode to their rows. -/
def Obligations.TableWordsDecode : Prop :=
  decodeTableWord 32 0x0005ABCD = some (.empty 0x00 0x05 0xABCD) ∧
  decodeTableWord 32 0x1002000A = some (.generic 0x02 0x000A) ∧
  decodeTableWord 32 0x99FF8001 = some (.unknown 0x99 0xFF 0x8001) ∧
  decodeTableWord 16 0x01DE = some (.grp9 0xDE true) ∧
  decodeTableWord 16 0xFE80 = some (.grp9 0x80 false) ∧
  decodeTableWord 8 0x00 = none

/-- R141, which the spec marks as derived from R133, R134 and R138: the walk's group `g` is the shift expression of
two neighbouring bytes, both inside the payload. -/
def Obligations.GroupsByShifts : Prop :=
  ∀ (data : List Byte) (g : Nat), g < groupCount data.length →
    g + g / 8 + 1 < data.length ∧
    decodeGroup data g =
      .grp9 ((data.getD (g + g / 8) 0 >>> (g % 8)) ||| (data.getD (g + g / 8 + 1) 0 <<< (8 - g % 8)))
        ((data.getD (g + g / 8 + 1) 0).getLsbD (g % 8))

/-! ## The parity validator -/

/-- R144, which the spec marks as derived from R136 to R141: `PV.CHECK` by the least bad group, whatever PV's
registers held before. -/
def Obligations.PvCheckByLeastBadGroup : Prop :=
  ∀ (parOdd : Bool) (data : List Byte) (pv : Pv), data.length ≠ 1 →
    ((∀ g, g < groupCount data.length → groupOk parOdd data g = true) →
      (pvCheck parOdd data pv).valid = true ∧
      (pvCheck parOdd data pv).unpacked = (List.range (groupCount data.length)).map (closedData data) ∧
      (pvCheck parOdd data pv).gdone = groupCount data.length) ∧
    (∀ f, f < groupCount data.length → groupOk parOdd data f = false →
      (∀ g, g < f → groupOk parOdd data g = true) →
      (pvCheck parOdd data pv).valid = false ∧
      (pvCheck parOdd data pv).unpacked =
        (List.range (f + 1)).map (closedData data) ++ List.replicate (groupCount data.length - (f + 1)) 0 ∧
      (pvCheck parOdd data pv).gdone = f)

/-- R151, which the spec marks as derived: packing and checking gives the data back, for every length; the packed
length is R150's, and never 1. -/
def Obligations.PackThenCheck : Prop :=
  ∀ (parOdd : Bool) (d : List Byte) (pv : Pv),
    (pvCheck parOdd (pack parOdd d) pv).valid = true ∧
    (pvCheck parOdd (pack parOdd d) pv).unpacked = d ∧
    (pack parOdd d).length = (9 * d.length + 7) / 8 ∧ (pack parOdd d).length ≠ 1 ∧
    groupCount (pack parOdd d).length = d.length

/-- R152, which the spec marks as derived: one flipped bit of a group of `PACK(d)` is caught at that group, and a
flipped parity bit makes ParityHex's string end with `!`; two flipped bits of one group are not caught. -/
def Obligations.SingleFlipCaught : Prop :=
  ∀ (parOdd : Bool) (d : List Byte) (g : Nat) (h : g < d.length) (pv : Pv),
    (pvCheck parOdd (flipBit (pack parOdd d) (9 * g + 8)) pv).valid = false ∧
    (pvCheck parOdd (flipBit (pack parOdd d) (9 * g + 8)) pv).gdone = g ∧
    (pvCheck parOdd (flipBit (pack parOdd d) (9 * g + 8)) pv).unpacked =
      d.take (g + 1) ++ List.replicate (d.length - (g + 1)) 0 ∧
    (∃ str, decParHex parOdd (flipBit (pack parOdd d) (9 * g + 8)) = .str (str ++ [0x21])) ∧
    (∀ k, k < 8 →
      (pvCheck parOdd (flipBit (pack parOdd d) (9 * g + k)) pv).valid = false ∧
      (pvCheck parOdd (flipBit (pack parOdd d) (9 * g + k)) pv).gdone = g ∧
      (pvCheck parOdd (flipBit (pack parOdd d) (9 * g + k)) pv).unpacked =
        d.take g ++ [d[g] ^^^ ((1 : Byte) <<< k)] ++ List.replicate (d.length - (g + 1)) 0) ∧
    (∀ k l, k < l → l ≤ 8 →
      (pvCheck parOdd (flipBit (flipBit (pack parOdd d) (9 * g + k)) (9 * g + l)) pv).valid = true)

/-- R146, which the spec marks as derived from R137: under `PAR_ODD = 0` the expected parity bit is `popcount8(d) mod
2`; the two senses accept complementary groups, so a payload valid under one fails at group 0 under the other. -/
def Obligations.ParitySensesExclude : Prop :=
  ∀ (parOdd : Bool) (data : List Byte) (pv pv' : Pv),
    (∀ g, groupOk false data g = true ↔ (closedParity data g).toNat = popcount8 (closedData data g) % 2) ∧
    (∀ g, groupOk (!parOdd) data g = !groupOk parOdd data g) ∧
    (1 ≤ groupCount data.length → (pvCheck parOdd data pv).valid = true →
      (pvCheck (!parOdd) data pv').valid = false ∧ (pvCheck (!parOdd) data pv').gdone = 0)

/-- R143: `(8n) mod 9` bits are left over, and the bits at and above `bitCount` cannot change any register PV has. -/
def Obligations.TrailingBitsIgnored : Prop :=
  (∀ n, bitCount n + 8 * n % 9 = 8 * n) ∧
  ∀ (parOdd : Bool) (data data' : List Byte) (pv : Pv), data.length ≠ 1 → data'.length = data.length →
    (∀ i, i < bitCount data.length → bitAt data' i = bitAt data i) →
    pvCheck parOdd data' pv = pvCheck parOdd data pv

/-- R145, which the spec marks as derived from R144: what is true of every result: its length, where it is always
valid, that a valid one means every group passed, and which bits it cannot depend on. -/
def Obligations.PvResultFacts : Prop :=
  ∀ (parOdd : Bool) (data : List Byte) (pv : Pv),
    (pvCheck parOdd data pv).unpacked.length = (if data.length = 1 then 1 else 8 * data.length / 9) ∧
    (data.length ≤ 1 → (pvCheck parOdd data pv).valid = true) ∧
    (data.length ≠ 1 → (pvCheck parOdd data pv).valid = true →
      ∀ g, g < groupCount data.length → groupOk parOdd data g = true) ∧
    (∀ data', data.length ≠ 1 → data'.length = data.length →
      (∀ i, i < bitCount data.length → bitAt data' i = bitAt data i) →
      (pvCheck parOdd data' pv).valid = (pvCheck parOdd data pv).valid ∧
      (pvCheck parOdd data' pv).unpacked = (pvCheck parOdd data pv).unpacked) ∧
    (∀ data', data.length ≠ 1 → data'.length = data.length → (pvCheck parOdd data pv).valid = false →
      (∀ i, i ≤ 9 * (pvCheck parOdd data pv).gdone + 8 → bitAt data' i = bitAt data i) →
      pvCheck parOdd data' pv = pvCheck parOdd data pv)

/-- R130: the pass-through of a one-byte input, whatever the byte. -/
def Obligations.ShortFramePassesThrough : Prop :=
  ∀ (parOdd : Bool) (b : Byte) (pv : Pv),
    (pvCheck parOdd [b] pv).unpacked = [b] ∧ (pvCheck parOdd [b] pv).nout = 1 ∧
    (pvCheck parOdd [b] pv).valid = true ∧ (pvCheck parOdd [b] pv).gdone = 0

/-- R137, R138: a GRP9 that passes, at the start of a group: its data byte goes into its output byte, the counters
move to the next group, and nothing else changes. -/
def Obligations.GroupPasses : Prop :=
  ∀ (d : Byte) (p : Bool) (s : State),
    s.phase = .dec → s.pv.run = .running → s.pv.i < 9 * s.pv.nout → s.pv.i % 9 = 0 → s.pv.one = 0 →
    (popcount8 d + p.toNat) % 2 = s.cfg.parOdd.toNat →
    exec (.grp9 d p) s = .next { s with pv := { s.pv with
      i := s.pv.i + 9
      out := s.pv.out.modify (s.pv.i / 9) (fun o => o ||| d)
      gdone := s.pv.gdone + 1 } }

/-- R137, R138, R139: a GRP9 that fails, at the start of a group: its data byte is stored, `pv_i` stays at the parity
bit, PV returns with `valid = 0`, and nothing else changes. -/
def Obligations.GroupFails : Prop :=
  ∀ (d : Byte) (p : Bool) (s : State),
    s.phase = .dec → s.pv.run = .running → s.pv.i < 9 * s.pv.nout → s.pv.i % 9 = 0 → s.pv.one = 0 →
    (popcount8 d + p.toNat) % 2 ≠ s.cfg.parOdd.toNat →
    exec (.grp9 d p) s = .next { s with pv := { s.pv with
      i := s.pv.i + 8
      one := popcount8 d
      out := s.pv.out.modify (s.pv.i / 9) (fun o => o ||| d)
      valid := false
      run := .returned } }

/-- R137, R139 and the model's choice of log 22 for a group already begun: wherever a GRP9 is enabled it completes,
and it changes PV's registers only, and of these neither `pv_nout` nor any output byte but its own group's. -/
def Obligations.GroupFrame : Prop :=
  ∀ (d : Byte) (p : Bool) (s : State),
    s.phase = .dec → s.pv.run = .running → s.pv.i < 9 * s.pv.nout →
    ∃ pv', exec (.grp9 d p) s = .next { s with pv := pv' } ∧
      pv'.nout = s.pv.nout ∧ pv'.out.length = s.pv.out.length ∧
      (∀ g, g ≠ s.pv.i / 9 → pv'.out.getD g 0 = s.pv.out.getD g 0) ∧
      ((pv'.run = .running ∧ pv'.i = 9 * (s.pv.i / 9) + 9 ∧ pv'.valid = s.pv.valid ∧ pv'.one = 0 ∧
          pv'.gdone = s.pv.gdone + 1) ∨
        (pv'.run = .returned ∧ pv'.i = 9 * (s.pv.i / 9) + 8 ∧ pv'.valid = false ∧ pv'.gdone = s.pv.gdone))

/-- R136, R147: a started PV, walked group by group by `step`, comes to the registers `PV.CHECK` gives as one action,
in at most one step a group and one to finish. That a step walks a group is the model's choice of log 10. -/
def Obligations.GroupStepsReachPvCheck : Prop :=
  ∀ (s : State) (pv : Pv), s.cfg.legal = true → s.phase = .dec → s.pv = pvStart s.payload pv →
    ∃ n, n ≤ groupCount s.payN + 1 ∧
      Host.Core.run core n s = .next { s with pv := pvCheck s.cfg.parOdd s.payload pv }

/-! ## The decoders -/

/-- R116, with the character codes of R117, which the spec takes from general knowledge (log 17): two lowercase digits
a byte, the high nibble's first. -/
def Obligations.HexDigits : Prop :=
  ∀ (bytes : List Byte),
    (hex bytes).length = 2 * bytes.length ∧
    ∀ (j : Nat) (h : j < bytes.length),
      (hex bytes)[2 * j]? = ([0x30, 0x31, 0x32, 0x33, 0x34, 0x35, 0x36, 0x37, 0x38, 0x39, 0x61, 0x62, 0x63, 0x64,
        0x65, 0x66] : List Byte)[bytes[j].toNat / 16]? ∧
      (hex bytes)[2 * j + 1]? = ([0x30, 0x31, 0x32, 0x33, 0x34, 0x35, 0x36, 0x37, 0x38, 0x39, 0x61, 0x62, 0x63, 0x64,
        0x65, 0x66] : List Byte)[bytes[j].toNat % 16]?

/-- R112: Text on 7-bit bytes, and on a byte above 0x7F under each policy. -/
def Obligations.TextPolicies : Prop :=
  ∀ (payload : List Byte),
    (∀ policy, (∀ b ∈ payload, b.toNat ≤ 0x7F) → decText policy payload = .str payload) ∧
    decText .passthrough payload = .str payload ∧
    (∀ c, decText (.replace c) payload =
      .str (payload.map (fun b => if b.toNat ≤ 0x7F then b else c.setWidth 8))) ∧
    (∀ (j : Nat) (h : j < payload.length), 0x7F < payload[j].toNat →
      (∀ b ∈ payload.take j, b.toNat ≤ 0x7F) → decText .fault payload = .invalidText j payload[j])

/-- R118, which the spec marks as derived: the size of each decoder's string. -/
def Obligations.DecodedSizes : Prop :=
  ∀ (cfg : Config) (payload : List Byte) (str : Str),
    (decodeString cfg .empty payload = .str str → str.length = 0) ∧
    (decodeString cfg .text payload = .str str → str.length = payload.length) ∧
    (decodeString cfg .rawHex payload = .str str → str.length = 2 * payload.length) ∧
    (decodeString cfg .parityHex payload = .str str →
      str.length = (if payload.length = 1 then 2 else 2 * (8 * payload.length / 9)) +
        (if (checkResult cfg.parOdd payload).1 then 0 else 1)) ∧
    (∀ kind, payload.length ≤ 255 → decodeString cfg kind payload = .str str → str.length ≤ 510)

/-! ## The records -/

/-- R173: a sentinel header is consumed and latched and the stream ends; no payload, no entry, `last_ts` stays. -/
def Obligations.SentinelEnds : Prop :=
  ∀ (c len : Byte) (ts : Half) (s : State), s.phase = .hdr →
    exec (.empty c len ts) s =
      .next { s with ev := c, len := len, ts := ts, pos := min (s.pos + 4) s.stream.size, phase := .done }

/-- R173, R190: a step at a header whose code resolves to the name "EMPTY" reads four bytes and ends the stream,
whatever its length byte says and whatever follows. -/
def Obligations.StepAtSentinel : Prop :=
  ∀ (s : State), s.cfg.legal = true → s.phase = .hdr → s.pos + 4 ≤ s.stream.size →
    (s.cfg.registry.lookup (s.stream.byteAt s.pos)).name = nameEmpty →
    ∃ t, step s = .next t ∧ t.phase = .done ∧ t.pos = s.pos + 4 ∧ t.entries = s.entries ∧ t.lastTs = s.lastTs ∧
      t.ev = s.stream.byteAt s.pos ∧ t.payN = s.payN ∧ t.pay = s.pay ∧ t.dstr = s.dstr ∧ t.pv = s.pv ∧
      t.fault = s.fault ∧ t.stream = s.stream ∧ t.cfg = s.cfg

/-- R87, R112, R174, R190, R192: GENERIC and REC.TEXT append one entry with the text of the payload. What lies beyond
a buffer's used part is the model's (log 28). -/
def Obligations.TextRecordsAppend : Prop :=
  ∀ (c len : Byte) (ts : Half) (s : State), s.phase = .hdr →
    (((∀ b ∈ s.nextPayload len, b.toNat ≤ 0x7F) ∨ s.cfg.textPolicy = .passthrough) →
      (∃ t, exec (.generic len ts) s = .next t ∧ RecordDone s t 0x10 len ts (s.nextPayload len) ∧ t.pv = s.pv) ∧
      (∃ t, exec (.recText c len ts) s = .next t ∧ RecordDone s t c len ts (s.nextPayload len) ∧ t.pv = s.pv)) ∧
    (∀ r, s.cfg.textPolicy = .replace r →
      (∃ t, exec (.generic len ts) s = .next t ∧ RecordDone s t 0x10 len ts
        ((s.nextPayload len).map (fun b => if b.toNat ≤ 0x7F then b else r.setWidth 8)) ∧ t.pv = s.pv) ∧
      (∃ t, exec (.recText c len ts) s = .next t ∧ RecordDone s t c len ts
        ((s.nextPayload len).map (fun b => if b.toNat ≤ 0x7F then b else r.setWidth 8)) ∧ t.pv = s.pv))

/-- R213, R191: under the policy `fault` a byte above 0x7F in a Text record records the fault and stops the run there;
under the other policies no fault is recorded. What lies beyond a buffer's used part is the model's (log 28). -/
def Obligations.TextFaultTaken : Prop :=
  ∀ (c len : Byte) (ts : Half) (s : State), s.phase = .hdr →
    (s.cfg.textPolicy = .fault → (∃ b ∈ s.nextPayload len, 0x7F < b.toNat) →
      (∃ t, exec (.generic len ts) s = .next t ∧ RecordFaulted s t 0x10 len ts) ∧
      (∃ t, exec (.recText c len ts) s = .next t ∧ RecordFaulted s t c len ts)) ∧
    (s.cfg.textPolicy ≠ .fault →
      (∃ t, exec (.generic len ts) s = .next t ∧ t.fault = s.fault ∧ t.phase = .hdr) ∧
      (∃ t, exec (.recText c len ts) s = .next t ∧ t.fault = s.fault ∧ t.phase = .hdr))

/-- R89, R113, R174, R190, R192, R214: UNKNOWN and REC.RAWHEX append one entry with the hex of the payload. What lies
beyond a buffer's used part is the model's (log 28). What lies beyond a buffer's used part is the model's (log 28). -/
def Obligations.RawHexRecordsAppend : Prop :=
  ∀ (c len : Byte) (ts : Half) (s : State), s.phase = .hdr →
    (∃ t, exec (.unknown c len ts) s = .next t ∧ RecordDone s t c len ts (hex (s.nextPayload len)) ∧ t.pv = s.pv) ∧
    (∃ t, exec (.recRawHex c len ts) s = .next t ∧ RecordDone s t c len ts (hex (s.nextPayload len)) ∧ t.pv = s.pv)

/-- R111, R174, R190, R192: RESET_APP and REC.EMPTYDEC read their payload and append one entry with the empty string.
-/
def Obligations.EmptyRecordsAppend : Prop :=
  ∀ (c len : Byte) (ts : Half) (s : State), s.phase = .hdr →
    (∃ t, exec (.resetApp c len ts) s = .next t ∧ RecordDone s t c len ts [] ∧ t.pv = s.pv) ∧
    (∃ t, exec (.recEmptyDec c len ts) s = .next t ∧ RecordDone s t c len ts [] ∧ t.pv = s.pv)

/-- R114, R174, R190, R192, R212: CODEC_RX_W_PARITY and REC.PARHEX append one entry with the hex of the unpacked
bytes, marked `!` on a violation; PV's result does not depend on what its registers held. What lies beyond a buffer's
used part is the model's (log 28). -/
def Obligations.ParityRecordsAppend : Prop :=
  ∀ (c len : Byte) (ts : Half) (s : State) (valid : Bool) (unpacked : List Byte), s.phase = .hdr →
    checkResult s.cfg.parOdd (s.nextPayload len) = (valid, unpacked) →
    (∃ t, exec (.codecRxWParity c len ts) s = .next t ∧
      RecordDone s t c len ts (if valid then hex unpacked else hex unpacked ++ [0x21]) ∧
      t.pv.valid = valid ∧ t.pv.unpacked = unpacked ∧ t.pv.run = .idle) ∧
    (∃ t, exec (.recParHex c len ts) s = .next t ∧
      RecordDone s t c len ts (if valid then hex unpacked else hex unpacked ++ [0x21]) ∧
      t.pv.valid = valid ∧ t.pv.unpacked = unpacked ∧ t.pv.run = .idle)

/-- R51, R69, R21, R33, R115: what no instruction changes when it answers a next state: the stream, the parameters,
the entries already made; PV's registers are changed by the ParityHex records and GRP9 only, the fault registers by
the Text records only. -/
def Obligations.InstructionFrame : Prop :=
  ∀ (i : Instr) (s t : State), exec i s = .next t →
    (∀ a, t.stream.byteAt a = s.stream.byteAt a) ∧ t.stream.size = s.stream.size ∧ t.cfg = s.cfg ∧
    s.entries <+: t.entries ∧
    (match i with
      | .codecRxWParity _ _ _ => t.fault = s.fault ∧ t.faultCode = s.faultCode
      | .recParHex _ _ _ => t.fault = s.fault ∧ t.faultCode = s.faultCode
      | .grp9 _ _ => t = { s with pv := t.pv }
      | .generic _ _ => t.pv = s.pv
      | .recText _ _ _ => t.pv = s.pv
      | .empty _ _ _ => t.pv = s.pv ∧ t.fault = s.fault ∧ t.faultCode = s.faultCode ∧ t.pay = s.pay ∧
          t.payN = s.payN ∧ t.dstr = s.dstr ∧ t.dstrN = s.dstrN ∧ t.entries = s.entries ∧ t.lastTs = s.lastTs
      | .unknown _ _ _ => t.pv = s.pv ∧ t.fault = s.fault ∧ t.faultCode = s.faultCode
      | .resetApp _ _ _ => t.pv = s.pv ∧ t.fault = s.fault ∧ t.faultCode = s.faultCode
      | .recEmptyDec _ _ _ => t.pv = s.pv ∧ t.fault = s.fault ∧ t.faultCode = s.faultCode
      | .recRawHex _ _ _ => t.pv = s.pv ∧ t.fault = s.fault ∧ t.faultCode = s.faultCode)

/-- R198, R36: in a terminal phase `exec` runs no instruction. -/
def Obligations.NothingRunsInTerminalPhases : Prop :=
  ∀ (i : Instr) (s : State),
    (s.phase = .done → exec i s = .fault .runEnded) ∧
    (s.phase = .faulted → exec i s = .fault .invalidTextEncoding)

/-- R214: two codes that resolve to the default entry give records that cannot be told apart, but for the latch `ev`.
-/
def Obligations.UnknownCodesAlike : Prop :=
  ∀ (c c' len : Byte) (ts : Half) (s t t' : State),
    s.cfg.registry.lookup c = descUnknown → s.cfg.registry.lookup c' = descUnknown →
    exec (.unknown c len ts) s = .next t → exec (.unknown c' len ts) s = .next t' →
    t' = { t with ev := c' }

/-! ## The timestamp -/

/-- R193: the delta is the difference over the integers, corrected by 65536 where that is negative; so it is in 0 to
65535 and equal to the difference modulo 65536. -/
def Obligations.DeltaIsWrapCorrected : Prop :=
  ∀ (ts last : Half),
    ((tsDelta ts last).toNat : Int) =
      (if last.toNat ≤ ts.toNat then (ts.toNat : Int) - last.toNat else (ts.toNat : Int) - last.toNat + 65536) ∧
    (tsDelta ts last).toNat ≤ 65535 ∧
    ((tsDelta ts last).toNat : Int) = ((ts.toNat : Int) - last.toNat) % 65536

/-- R193's clause for 16-bit hardware, which the spec marks as derived: the delta is the wrapping subtraction. -/
def Obligations.DeltaIsWrappingSubtraction : Prop :=
  ∀ (ts last : Half), tsDelta ts last = ts - last

/-- R194: `last_ts` is 0 at launch, and in every run from there the first entry's delta is its timestamp. -/
def Obligations.FirstEntryDelta : Prop :=
  ∀ (cfg : Config) (bytes : List Byte) (s : State) (k : Nat) (e : LogEntry),
    (launch cfg bytes s).lastTs = 0 ∧
    ((ldRun k (launch cfg bytes s)).entries.head? = some e → e.deltaTimestamp = e.timestamp)

/-- R195: the deltas of the entries add up to the last timestamp modulo 65536; every step keeps this. -/
def Obligations.StepKeepsDeltaSum : Prop :=
  ∀ (s t : State), deltaSum s.entries = s.lastTs → step s = .next t → deltaSum t.entries = t.lastTs

/-! ## The step -/

/-- R190: in `P_HDR` a step with a whole header at `pos` is `exec` of the instruction decoded there. -/
def Obligations.StepRunsRecord : Prop :=
  ∀ (s : State) (i : Instr) (rest : List Byte), s.cfg.legal = true → s.phase = .hdr →
    decode s.cfg.registry (s.stream.read s.pos 4) = .ok (i, rest) → step s = exec i s

/-- R147: in `P_DEC`, while PV runs and has bits left, a step is `exec` of the group PV stands in. -/
def Obligations.StepRunsGroup : Prop :=
  ∀ (s : State), s.cfg.legal = true → s.phase = .dec → s.pv.run = .running → s.pv.i < 9 * s.pv.nout →
    step s = exec (decodeGroup s.payload (s.pv.i / 9)) s

/-- R190, R175, R110: a step in `P_HDR` is `LD.STEP`, which looks the code up in the registry and knows nothing of the
instruction decoded. -/
def Obligations.StepIsLdStep : Prop :=
  ∀ (s : State), s.cfg.legal = true → s.phase = .hdr → step s = .next (ldStep s)

/-- R26, R147: the smallest steps, a bit of PV's walk each, come to the state the record's one step gives. -/
def Obligations.MicroStepsReachRecordStep : Prop :=
  ∀ (s : State), s.cfg.legal = true → s.phase = .hdr → s.pv.run = .idle →
    ∃ n, n ≤ 2040 ∧ microRun n s = .next (ldStep s)

/-- R176, R175: the byte-serial reader, its counters apart, is the same function of the stream as `RR.NEXT`. -/
def Obligations.SerialReaderReachesRrNext : Prop :=
  ∀ (s : State), s.phase = .hdr → s.pay.length = 255 →
    ∃ n, n ≤ 260 ∧ (SerialReader.run n (SerialReader.start s)).mach = (rrNext s).state ∧
      (rrNext s).state.phase ≠ .hdr ∧ (rrNext s).state.phase ≠ .pay

/-- R171: fewer than four bytes end the stream; the tail is consumed and no latch is written. -/
def Obligations.ShortHeaderEnds : Prop :=
  ∀ (s : State), s.cfg.legal = true → s.phase = .hdr → s.stream.size - s.pos < 4 →
    step s = .next { s with pos := s.stream.size, phase := .done }

/-- R172: a whole header is latched, `ts` from its two bytes high byte first, `pos` moves by four, and the name
decides the phase. -/
def Obligations.HeaderLatched : Prop :=
  ∀ (s : State), s.cfg.legal = true → s.phase = .hdr → s.pos + 4 ≤ s.stream.size →
    ∃ t, microStep s = .next t ∧
      t.ev = s.stream.byteAt s.pos ∧ t.len = s.stream.byteAt (s.pos + 1) ∧
      t.ts.toNat = (s.stream.byteAt (s.pos + 2)).toNat * 256 + (s.stream.byteAt (s.pos + 3)).toNat ∧
      t.pos = s.pos + 4 ∧
      t.phase = (if (s.cfg.registry.lookup (s.stream.byteAt s.pos)).name = nameEmpty then .done else .pay) ∧
      t = { s with ev := t.ev, len := t.len, ts := t.ts, pos := t.pos, phase := t.phase }

/-- R174: the payload is `len` bytes or the fewer that are left; no register changes but `pay`, `pay_n`, `pos` and the
phase. Of `pay` beyond `pay_n`, which R25 leaves unspecified, nothing is said. Of `dstr` beyond `dstr_n` nothing is
said. -/
def Obligations.PayloadRead : Prop :=
  ∀ (s : State), s.cfg.legal = true → s.phase = .pay → s.pos ≤ s.stream.size →
    ∃ t, step s = .next t ∧
      t.payN = min s.len.toNat (s.stream.size - s.pos) ∧ t.payload.length = t.payN ∧
      (∀ j, j < t.payN → t.payload.getD j 0 = s.stream.byteAt (s.pos + j)) ∧
      t.pos = s.pos + t.payN ∧ t.phase = .dec ∧
      t = { s with pay := t.pay, payN := t.payN, pos := t.pos, phase := t.phase }

/-- R191, R110: the decode step of the kinds that finish at once: a string is stored, InvalidTextEncoding is recorded.
-/
def Obligations.DecodeStep : Prop :=
  ∀ (s : State), s.cfg.legal = true → s.phase = .dec → s.pv.run = .idle →
    (s.cfg.registry.lookup s.ev).kind ≠ .parityHex →
    (∀ str, decodeString s.cfg (s.cfg.registry.lookup s.ev).kind s.payload = .str str →
      ∃ t, step s = .next t ∧ t.decoded = str ∧ t.dstrN = str.length ∧ t.phase = .emit ∧
        t = { s with dstr := t.dstr, dstrN := t.dstrN, phase := t.phase }) ∧
    (∀ j b, decodeString s.cfg (s.cfg.registry.lookup s.ev).kind s.payload = .invalidText j b →
      step s = .next { s with fault := true, faultCode := 2, phase := .faulted })

/-- R130, R132, R135, R140, R114: `DEC.PARHEX` by its own steps: PV is started, PV is finished when no bit is left,
and the string is made from what PV returned. -/
def Obligations.ParitySteps : Prop :=
  ∀ (s : State), s.cfg.legal = true → s.phase = .dec →
    (s.pv.run = .idle → (s.cfg.registry.lookup s.ev).kind = .parityHex → s.payload.length ≠ 1 →
      ∃ t, step s = .next t ∧ t.pv.nout = 8 * s.payload.length / 9 ∧ t.pv.i = 0 ∧ t.pv.one = 0 ∧ t.pv.gdone = 0 ∧
        t.pv.unpacked = List.replicate (8 * s.payload.length / 9) 0 ∧ t.pv.run = .running ∧ t = { s with pv := t.pv }) ∧
    (s.pv.run = .running → s.pv.i = 9 * s.pv.nout →
      step s = .next { s with pv := { s.pv with valid := true, run := .returned } }) ∧
    (s.pv.run = .returned →
      ∃ t, step s = .next t ∧ t.phase = .emit ∧
        t.decoded = (if s.pv.valid then hex s.pv.unpacked else hex s.pv.unpacked ++ [0x21]) ∧
        t.pv = { s.pv with run := .idle } ∧ t.fault = s.fault ∧ t.entries = s.entries ∧ t.lastTs = s.lastTs)

/-- R192: the emit step: the delta is taken from the old `last_ts`, and one whole entry is appended. -/
def Obligations.EmitStep : Prop :=
  ∀ (s : State), s.cfg.legal = true → s.phase = .emit →
    step s = .next { s with
      lastTs := s.ts
      entries := s.entries ++
        [{ eventName := (s.cfg.registry.lookup s.ev).name, dataLength := s.len, timestamp := s.ts,
           deltaTimestamp := s.ts - s.lastTs, data := s.dstr.take s.dstrN }]
      phase := .hdr }

/-- R198, R36: no step is enabled in a terminal phase. -/
def Obligations.TerminalPhasesStop : Prop :=
  ∀ (s : State), s.cfg.legal = true →
    (s.phase = .done → step s = .fault .runEnded) ∧ (s.phase = .faulted → step s = .fault .invalidTextEncoding)

/-- 93_implementation_defined.md U15: a registry that R91 does not allow has no meaning. -/
def Obligations.IllegalConfigurationRefused : Prop :=
  ∀ (s : State), s.cfg.legal = false → step s = .refused .illegalConfiguration

/-! ## Invariants -/

/-- R43: every step keeps the invariant. -/
def Obligations.StepKeepsInv : Prop :=
  ∀ (s t : State), s.Inv → step s = .next t → t.Inv

/-- R22 and the canonical form of the stream: every step keeps every register in its range. -/
def Obligations.StepKeepsRanges : Prop :=
  ∀ (s t : State), s.InRange → step s = .next t → t.InRange

/-- R41, R43, R22: the reset state, and every launched state, has both invariants. -/
def Obligations.ResetHasInvariants : Prop :=
  State.reset.Inv ∧ State.reset.InRange ∧
    ∀ (cfg : Config) (bytes : List Byte) (s : State),
      (launch cfg bytes s).Inv ∧ (launch cfg bytes s).InRange

/-- R21, R24, R51: no step changes the stream or the parameters, and `pos` never goes back. -/
def Obligations.StepReadsForward : Prop :=
  ∀ (s t : State), s.pos ≤ s.stream.size → step s = .next t →
    t.stream = s.stream ∧ t.cfg = s.cfg ∧ s.pos ≤ t.pos ∧ t.pos ≤ t.stream.size

/-- R33, R192: entries are only appended, at most one in a step, and exactly one in a record's step that ends in
`P_HDR`. -/
def Obligations.EntriesOnlyGrow : Prop :=
  ∀ (s t : State), step s = .next t →
    (t.entries = s.entries ∨ ∃ e, t.entries = s.entries ++ [e]) ∧
    (s.phase = .hdr → t.phase = .hdr → ∃ e, t.entries = s.entries ++ [e]) ∧
    (t.phase = .done ∨ t.phase = .faulted → t.entries = s.entries ∧ t.lastTs = s.lastTs)

/-- R35, R222: a step never clears `fault`, and sets it only as InvalidTextEncoding under the policy `fault`. -/
def Obligations.FaultIsSticky : Prop :=
  ∀ (s t : State), step s = .next t →
    (s.fault = true → t.fault = true) ∧
    (t.fault = true → s.fault = true ∨
      (s.cfg.textPolicy = .fault ∧ t.faultCode = 2 ∧ t.phase = .faulted ∧
        (t.cfg.registry.lookup t.ev).kind = .text))

/-! ## Whole runs and the host -/

/-- R197, which the spec marks as derived: a record that does not end the run consumes its header at least, and `pos`
never goes back; a run from `P_HDR` ends after at most `floor(len(S)/4) + 1` calls, with at most `floor(len(S)/4)`
entries more. -/
def Obligations.RunEnds : Prop :=
  ∀ (s : State), s.phase = .hdr →
    ((ldStep s).phase.terminal = false → s.pos + 4 ≤ (ldStep s).pos) ∧
    (s.pos ≤ s.stream.size → s.pos ≤ (ldStep s).pos) ∧
    (ldRun (s.stream.size / 4 + 1) s).phase.terminal = true ∧
    (ldRun (s.stream.size / 4 + 1) s).entries.length ≤ s.entries.length + s.stream.size / 4

/-- R217: under a policy other than `fault` every run ends in `P_DONE` and no fault is recorded. -/
def Obligations.RunEndsWellWithoutFaultPolicy : Prop :=
  ∀ (s : State), s.phase = .hdr → s.cfg.textPolicy ≠ .fault →
    (ldRun (s.stream.size / 4 + 1) s).phase = .done ∧ (ldRun (s.stream.size / 4 + 1) s).fault = s.fault

/-- R171, R173: a stream shorter than four bytes, and a stream whose first code is 0x00, give no entry. -/
def Obligations.EmptyDecodes : Prop :=
  ∀ (cfg : Config) (bytes : List Byte) (s : State) (k : Nat), cfg.legal = true →
    (bytes.length < 4 ∨ bytes.head? = some 0x00) →
    (ldRun k (launch cfg bytes s)).entries = [] ∧ (ldRun (k + 1) (launch cfg bytes s)).phase = .done

/-- R178, R257: a record whose payload the stream cuts short still makes its entry, with the declared length, and the
next step ends the stream. -/
def Obligations.TruncatedRecordLooksWhole : Prop :=
  ∀ (s t : State), s.cfg.legal = true → s.phase = .hdr → s.pos + 4 ≤ s.stream.size →
    s.stream.size < s.pos + 4 + (s.stream.byteAt (s.pos + 1)).toNat →
    step s = .next t → t.phase = .hdr →
    t.payN = s.stream.size - (s.pos + 4) ∧ t.payN < t.len.toNat ∧
    (t.entries.getLast?.map LogEntry.dataLength) = some (s.stream.byteAt (s.pos + 1)) ∧
    step t = .next { t with phase := .done }

/-- R41, R240: what reset leaves, from any state: the five values the spec gives. -/
def Obligations.ResetValues : Prop :=
  (State.reset.lastTs = 0 ∧ State.reset.pos = 0 ∧ State.reset.phase = .hdr ∧ State.reset.entries = [] ∧
    State.reset.fault = false) ∧
  ∀ (s : State), (resetInput s).lastTs = 0 ∧ (resetInput s).pos = 0 ∧ (resetInput s).phase = .hdr ∧
    (resetInput s).entries = [] ∧ (resetInput s).fault = false

/-- R86 to R91 and the free value of log 3: the reset state's registry is legal whatever the open part holds. -/
def Obligations.ResetConfigurationLegal : Prop :=
  State.reset.cfg.legal = true ∧ State.reset.cfg.parOdd = true ∧ State.reset.cfg.textPolicy = .fault ∧
    State.reset.cfg.registry.lookup 0x00 = descEmpty ∧ State.reset.cfg.registry.lookup 0x10 = descGeneric ∧
    State.reset.cfg.registry.lookup 0x99 = descUnknown

/-- R131, D17: a PV used alone runs `PV.CHECK` on inputs up to its bound and refuses longer ones. -/
def Obligations.PvAloneBounded : Prop :=
  ∀ (cfg : Config) (data : List Byte) (pv : Pv),
    (data.length ≤ cfg.pvMaxLen → pvAlone cfg data pv = .next (pvCheck cfg.parOdd data pv)) ∧
    (cfg.pvMaxLen < data.length → pvAlone cfg data pv = .refused .pvInputTooLong)

/-- R37: the numbers of the fields of the parameters, each value of a field read back as what it stands for; the kind
value 3 of `TEXT_POLICY` is no policy, and a host that configures it is refused (U15, log 9). -/
def Obligations.ConfigurationFields : Prop :=
  (TextPolicy.fault.number = 0 ∧ (∀ c, (TextPolicy.replace c).number = 1) ∧ TextPolicy.passthrough.number = 2) ∧
  (∀ (policy : TextPolicy) (c : BitVec 7),
    TextPolicy.ofFields policy.number (policy.character.getD c) = some policy) ∧
  (DecoderKind.empty.number = 0 ∧ DecoderKind.text.number = 1 ∧ DecoderKind.rawHex.number = 2 ∧
    DecoderKind.parityHex.number = 3) ∧
  (∀ (n : BitVec 2), (DecoderKind.ofNumber n).number = n) ∧
  (∀ (p : BitVec 1) (kind : BitVec 2) (c : BitVec 7) (reg : Registry) (bound : Nat) (s : State),
    (kind = 3 → configureFields p kind c reg bound s = .refused .illegalConfiguration) ∧
    (kind ≠ 3 → ∃ t, configureFields p kind c reg bound s = .next t ∧ t.cfg.parOdd.toNat = p.toNat ∧
      t.cfg.textPolicy.number = kind ∧ (kind = 1 → t.cfg.textPolicy.character = some c) ∧
      t.cfg.registry = reg ∧ t.cfg.pvMaxLen = bound ∧ t = { s with cfg := t.cfg }))
end

