-- ==== Sys2Proof/Laws/State.lean ====
section
/-!
SUPPORT. One lemma per field per named update of the state, so that no later proof unfolds a record update.
-/

namespace Sys2Proof.Machine

/-! ### latchHeader -/

@[simp] theorem latchHeader_stream (c len : Byte) (ts : Half) (ph : Phase) (s : State) :
    (latchHeader c len ts ph s).stream = s.stream := rfl
@[simp] theorem latchHeader_cfg (c len : Byte) (ts : Half) (ph : Phase) (s : State) :
    (latchHeader c len ts ph s).cfg = s.cfg := rfl
@[simp] theorem latchHeader_phase (c len : Byte) (ts : Half) (ph : Phase) (s : State) :
    (latchHeader c len ts ph s).phase = ph := rfl
@[simp] theorem latchHeader_pos (c len : Byte) (ts : Half) (ph : Phase) (s : State) :
    (latchHeader c len ts ph s).pos = s.stream.after s.pos 4 := rfl
@[simp] theorem latchHeader_ev (c len : Byte) (ts : Half) (ph : Phase) (s : State) :
    (latchHeader c len ts ph s).ev = c := rfl
@[simp] theorem latchHeader_len (c len : Byte) (ts : Half) (ph : Phase) (s : State) :
    (latchHeader c len ts ph s).len = len := rfl
@[simp] theorem latchHeader_ts (c len : Byte) (ts : Half) (ph : Phase) (s : State) :
    (latchHeader c len ts ph s).ts = ts := rfl
@[simp] theorem latchHeader_pay (c len : Byte) (ts : Half) (ph : Phase) (s : State) :
    (latchHeader c len ts ph s).pay = s.pay := rfl
@[simp] theorem latchHeader_payN (c len : Byte) (ts : Half) (ph : Phase) (s : State) :
    (latchHeader c len ts ph s).payN = s.payN := rfl
@[simp] theorem latchHeader_lastTs (c len : Byte) (ts : Half) (ph : Phase) (s : State) :
    (latchHeader c len ts ph s).lastTs = s.lastTs := rfl
@[simp] theorem latchHeader_pv (c len : Byte) (ts : Half) (ph : Phase) (s : State) :
    (latchHeader c len ts ph s).pv = s.pv := rfl
@[simp] theorem latchHeader_dstr (c len : Byte) (ts : Half) (ph : Phase) (s : State) :
    (latchHeader c len ts ph s).dstr = s.dstr := rfl
@[simp] theorem latchHeader_dstrN (c len : Byte) (ts : Half) (ph : Phase) (s : State) :
    (latchHeader c len ts ph s).dstrN = s.dstrN := rfl
@[simp] theorem latchHeader_fault (c len : Byte) (ts : Half) (ph : Phase) (s : State) :
    (latchHeader c len ts ph s).fault = s.fault := rfl
@[simp] theorem latchHeader_faultCode (c len : Byte) (ts : Half) (ph : Phase) (s : State) :
    (latchHeader c len ts ph s).faultCode = s.faultCode := rfl
@[simp] theorem latchHeader_entries (c len : Byte) (ts : Half) (ph : Phase) (s : State) :
    (latchHeader c len ts ph s).entries = s.entries := rfl

/-! ### endShort -/

@[simp] theorem endShort_stream (s : State) :
    (endShort s).stream = s.stream := rfl
@[simp] theorem endShort_cfg (s : State) :
    (endShort s).cfg = s.cfg := rfl
@[simp] theorem endShort_phase (s : State) :
    (endShort s).phase = .done := rfl
@[simp] theorem endShort_pos (s : State) :
    (endShort s).pos = s.stream.size := rfl
@[simp] theorem endShort_ev (s : State) :
    (endShort s).ev = s.ev := rfl
@[simp] theorem endShort_len (s : State) :
    (endShort s).len = s.len := rfl
@[simp] theorem endShort_ts (s : State) :
    (endShort s).ts = s.ts := rfl
@[simp] theorem endShort_pay (s : State) :
    (endShort s).pay = s.pay := rfl
@[simp] theorem endShort_payN (s : State) :
    (endShort s).payN = s.payN := rfl
@[simp] theorem endShort_lastTs (s : State) :
    (endShort s).lastTs = s.lastTs := rfl
@[simp] theorem endShort_pv (s : State) :
    (endShort s).pv = s.pv := rfl
@[simp] theorem endShort_dstr (s : State) :
    (endShort s).dstr = s.dstr := rfl
@[simp] theorem endShort_dstrN (s : State) :
    (endShort s).dstrN = s.dstrN := rfl
@[simp] theorem endShort_fault (s : State) :
    (endShort s).fault = s.fault := rfl
@[simp] theorem endShort_faultCode (s : State) :
    (endShort s).faultCode = s.faultCode := rfl
@[simp] theorem endShort_entries (s : State) :
    (endShort s).entries = s.entries := rfl

/-! ### readPayload -/

@[simp] theorem readPayload_stream (s : State) :
    (readPayload s).stream = s.stream := rfl
@[simp] theorem readPayload_cfg (s : State) :
    (readPayload s).cfg = s.cfg := rfl
@[simp] theorem readPayload_phase (s : State) :
    (readPayload s).phase = .dec := rfl
@[simp] theorem readPayload_pos (s : State) :
    (readPayload s).pos = s.stream.after s.pos s.len.toNat := rfl
@[simp] theorem readPayload_ev (s : State) :
    (readPayload s).ev = s.ev := rfl
@[simp] theorem readPayload_len (s : State) :
    (readPayload s).len = s.len := rfl
@[simp] theorem readPayload_ts (s : State) :
    (readPayload s).ts = s.ts := rfl
@[simp] theorem readPayload_pay (s : State) :
    (readPayload s).pay = overlay (s.stream.read s.pos s.len.toNat) s.pay := rfl
@[simp] theorem readPayload_payN (s : State) :
    (readPayload s).payN = (s.stream.read s.pos s.len.toNat).length := rfl
@[simp] theorem readPayload_lastTs (s : State) :
    (readPayload s).lastTs = s.lastTs := rfl
@[simp] theorem readPayload_pv (s : State) :
    (readPayload s).pv = s.pv := rfl
@[simp] theorem readPayload_dstr (s : State) :
    (readPayload s).dstr = s.dstr := rfl
@[simp] theorem readPayload_dstrN (s : State) :
    (readPayload s).dstrN = s.dstrN := rfl
@[simp] theorem readPayload_fault (s : State) :
    (readPayload s).fault = s.fault := rfl
@[simp] theorem readPayload_faultCode (s : State) :
    (readPayload s).faultCode = s.faultCode := rfl
@[simp] theorem readPayload_entries (s : State) :
    (readPayload s).entries = s.entries := rfl

/-! ### storeString -/

@[simp] theorem storeString_stream (str : Str) (s : State) :
    (storeString str s).stream = s.stream := rfl
@[simp] theorem storeString_cfg (str : Str) (s : State) :
    (storeString str s).cfg = s.cfg := rfl
@[simp] theorem storeString_phase (str : Str) (s : State) :
    (storeString str s).phase = .emit := rfl
@[simp] theorem storeString_pos (str : Str) (s : State) :
    (storeString str s).pos = s.pos := rfl
@[simp] theorem storeString_ev (str : Str) (s : State) :
    (storeString str s).ev = s.ev := rfl
@[simp] theorem storeString_len (str : Str) (s : State) :
    (storeString str s).len = s.len := rfl
@[simp] theorem storeString_ts (str : Str) (s : State) :
    (storeString str s).ts = s.ts := rfl
@[simp] theorem storeString_pay (str : Str) (s : State) :
    (storeString str s).pay = s.pay := rfl
@[simp] theorem storeString_payN (str : Str) (s : State) :
    (storeString str s).payN = s.payN := rfl
@[simp] theorem storeString_lastTs (str : Str) (s : State) :
    (storeString str s).lastTs = s.lastTs := rfl
@[simp] theorem storeString_pv (str : Str) (s : State) :
    (storeString str s).pv = s.pv := rfl
@[simp] theorem storeString_dstr (str : Str) (s : State) :
    (storeString str s).dstr = overlay str s.dstr := rfl
@[simp] theorem storeString_dstrN (str : Str) (s : State) :
    (storeString str s).dstrN = str.length := rfl
@[simp] theorem storeString_fault (str : Str) (s : State) :
    (storeString str s).fault = s.fault := rfl
@[simp] theorem storeString_faultCode (str : Str) (s : State) :
    (storeString str s).faultCode = s.faultCode := rfl
@[simp] theorem storeString_entries (str : Str) (s : State) :
    (storeString str s).entries = s.entries := rfl

/-! ### emitEntry -/

@[simp] theorem emitEntry_stream (s : State) :
    (emitEntry s).stream = s.stream := rfl
@[simp] theorem emitEntry_cfg (s : State) :
    (emitEntry s).cfg = s.cfg := rfl
@[simp] theorem emitEntry_phase (s : State) :
    (emitEntry s).phase = .hdr := rfl
@[simp] theorem emitEntry_pos (s : State) :
    (emitEntry s).pos = s.pos := rfl
@[simp] theorem emitEntry_ev (s : State) :
    (emitEntry s).ev = s.ev := rfl
@[simp] theorem emitEntry_len (s : State) :
    (emitEntry s).len = s.len := rfl
@[simp] theorem emitEntry_ts (s : State) :
    (emitEntry s).ts = s.ts := rfl
@[simp] theorem emitEntry_pay (s : State) :
    (emitEntry s).pay = s.pay := rfl
@[simp] theorem emitEntry_payN (s : State) :
    (emitEntry s).payN = s.payN := rfl
@[simp] theorem emitEntry_lastTs (s : State) :
    (emitEntry s).lastTs = s.ts := rfl
@[simp] theorem emitEntry_pv (s : State) :
    (emitEntry s).pv = s.pv := rfl
@[simp] theorem emitEntry_dstr (s : State) :
    (emitEntry s).dstr = s.dstr := rfl
@[simp] theorem emitEntry_dstrN (s : State) :
    (emitEntry s).dstrN = s.dstrN := rfl
@[simp] theorem emitEntry_fault (s : State) :
    (emitEntry s).fault = s.fault := rfl
@[simp] theorem emitEntry_faultCode (s : State) :
    (emitEntry s).faultCode = s.faultCode := rfl
@[simp] theorem emitEntry_entries (s : State) :
    (emitEntry s).entries = s.entries ++ [entryOf s] := rfl

/-! ### raiseText -/

@[simp] theorem raiseText_stream (s : State) :
    (raise .invalidTextEncoding s).stream = s.stream := rfl
@[simp] theorem raiseText_cfg (s : State) :
    (raise .invalidTextEncoding s).cfg = s.cfg := rfl
@[simp] theorem raiseText_phase (s : State) :
    (raise .invalidTextEncoding s).phase = .faulted := rfl
@[simp] theorem raiseText_pos (s : State) :
    (raise .invalidTextEncoding s).pos = s.pos := rfl
@[simp] theorem raiseText_ev (s : State) :
    (raise .invalidTextEncoding s).ev = s.ev := rfl
@[simp] theorem raiseText_len (s : State) :
    (raise .invalidTextEncoding s).len = s.len := rfl
@[simp] theorem raiseText_ts (s : State) :
    (raise .invalidTextEncoding s).ts = s.ts := rfl
@[simp] theorem raiseText_pay (s : State) :
    (raise .invalidTextEncoding s).pay = s.pay := rfl
@[simp] theorem raiseText_payN (s : State) :
    (raise .invalidTextEncoding s).payN = s.payN := rfl
@[simp] theorem raiseText_lastTs (s : State) :
    (raise .invalidTextEncoding s).lastTs = s.lastTs := rfl
@[simp] theorem raiseText_pv (s : State) :
    (raise .invalidTextEncoding s).pv = s.pv := rfl
@[simp] theorem raiseText_dstr (s : State) :
    (raise .invalidTextEncoding s).dstr = s.dstr := rfl
@[simp] theorem raiseText_dstrN (s : State) :
    (raise .invalidTextEncoding s).dstrN = s.dstrN := rfl
@[simp] theorem raiseText_fault (s : State) :
    (raise .invalidTextEncoding s).fault = true := rfl
@[simp] theorem raiseText_faultCode (s : State) :
    (raise .invalidTextEncoding s).faultCode = 2 := rfl
@[simp] theorem raiseText_entries (s : State) :
    (raise .invalidTextEncoding s).entries = s.entries := rfl

/-! ### resetInput -/

@[simp] theorem resetInput_stream (s : State) :
    (resetInput s).stream = s.stream := rfl
@[simp] theorem resetInput_cfg (s : State) :
    (resetInput s).cfg = s.cfg := rfl
@[simp] theorem resetInput_phase (s : State) :
    (resetInput s).phase = .hdr := rfl
@[simp] theorem resetInput_pos (s : State) :
    (resetInput s).pos = 0 := rfl
@[simp] theorem resetInput_ev (s : State) :
    (resetInput s).ev = 0 := rfl
@[simp] theorem resetInput_len (s : State) :
    (resetInput s).len = 0 := rfl
@[simp] theorem resetInput_ts (s : State) :
    (resetInput s).ts = 0 := rfl
@[simp] theorem resetInput_pay (s : State) :
    (resetInput s).pay = List.replicate maxPayload 0 := rfl
@[simp] theorem resetInput_payN (s : State) :
    (resetInput s).payN = 0 := rfl
@[simp] theorem resetInput_lastTs (s : State) :
    (resetInput s).lastTs = 0 := rfl
@[simp] theorem resetInput_pv (s : State) :
    (resetInput s).pv = pvReset := rfl
@[simp] theorem resetInput_dstr (s : State) :
    (resetInput s).dstr = List.replicate maxStr 0 := rfl
@[simp] theorem resetInput_dstrN (s : State) :
    (resetInput s).dstrN = 0 := rfl
@[simp] theorem resetInput_fault (s : State) :
    (resetInput s).fault = false := rfl
@[simp] theorem resetInput_faultCode (s : State) :
    (resetInput s).faultCode = 0 := rfl
@[simp] theorem resetInput_entries (s : State) :
    (resetInput s).entries = [] := rfl

/-! ### bitPhase -/

@[simp] theorem bitPhase_stream (s : State) :
    (bitPhase s).stream = s.stream := rfl
@[simp] theorem bitPhase_cfg (s : State) :
    (bitPhase s).cfg = s.cfg := rfl
@[simp] theorem bitPhase_phase (s : State) :
    (bitPhase s).phase = s.phase := rfl
@[simp] theorem bitPhase_pos (s : State) :
    (bitPhase s).pos = s.pos := rfl
@[simp] theorem bitPhase_ev (s : State) :
    (bitPhase s).ev = s.ev := rfl
@[simp] theorem bitPhase_len (s : State) :
    (bitPhase s).len = s.len := rfl
@[simp] theorem bitPhase_ts (s : State) :
    (bitPhase s).ts = s.ts := rfl
@[simp] theorem bitPhase_pay (s : State) :
    (bitPhase s).pay = s.pay := rfl
@[simp] theorem bitPhase_payN (s : State) :
    (bitPhase s).payN = s.payN := rfl
@[simp] theorem bitPhase_lastTs (s : State) :
    (bitPhase s).lastTs = s.lastTs := rfl
@[simp] theorem bitPhase_pv (s : State) :
    (bitPhase s).pv = pvBit s.cfg.parOdd (bitAt s.payload s.pv.i) s.pv := rfl
@[simp] theorem bitPhase_dstr (s : State) :
    (bitPhase s).dstr = s.dstr := rfl
@[simp] theorem bitPhase_dstrN (s : State) :
    (bitPhase s).dstrN = s.dstrN := rfl
@[simp] theorem bitPhase_fault (s : State) :
    (bitPhase s).fault = s.fault := rfl
@[simp] theorem bitPhase_faultCode (s : State) :
    (bitPhase s).faultCode = s.faultCode := rfl
@[simp] theorem bitPhase_entries (s : State) :
    (bitPhase s).entries = s.entries := rfl

/-! ### finishPhase -/

@[simp] theorem finishPhase_stream (s : State) :
    (finishPhase s).stream = s.stream := rfl
@[simp] theorem finishPhase_cfg (s : State) :
    (finishPhase s).cfg = s.cfg := rfl
@[simp] theorem finishPhase_phase (s : State) :
    (finishPhase s).phase = s.phase := rfl
@[simp] theorem finishPhase_pos (s : State) :
    (finishPhase s).pos = s.pos := rfl
@[simp] theorem finishPhase_ev (s : State) :
    (finishPhase s).ev = s.ev := rfl
@[simp] theorem finishPhase_len (s : State) :
    (finishPhase s).len = s.len := rfl
@[simp] theorem finishPhase_ts (s : State) :
    (finishPhase s).ts = s.ts := rfl
@[simp] theorem finishPhase_pay (s : State) :
    (finishPhase s).pay = s.pay := rfl
@[simp] theorem finishPhase_payN (s : State) :
    (finishPhase s).payN = s.payN := rfl
@[simp] theorem finishPhase_lastTs (s : State) :
    (finishPhase s).lastTs = s.lastTs := rfl
@[simp] theorem finishPhase_pv (s : State) :
    (finishPhase s).pv = pvFinish s.pv := rfl
@[simp] theorem finishPhase_dstr (s : State) :
    (finishPhase s).dstr = s.dstr := rfl
@[simp] theorem finishPhase_dstrN (s : State) :
    (finishPhase s).dstrN = s.dstrN := rfl
@[simp] theorem finishPhase_fault (s : State) :
    (finishPhase s).fault = s.fault := rfl
@[simp] theorem finishPhase_faultCode (s : State) :
    (finishPhase s).faultCode = s.faultCode := rfl
@[simp] theorem finishPhase_entries (s : State) :
    (finishPhase s).entries = s.entries := rfl

/-- R220: this condition changes nothing of itself. -/
@[simp] theorem raise_streamTruncated (s : State) : raise .streamTruncated s = s := rfl
/-- R220: this condition changes nothing of itself. -/
@[simp] theorem raise_parityViolation (s : State) : raise .parityViolation s = s := rfl
/-- R220: this condition changes nothing of itself. -/
@[simp] theorem raise_unknownEventCode (s : State) : raise .unknownEventCode s = s := rfl

/-! ### The parts of an updated state -/

@[simp] theorem overlay_take (new old : List Byte) : (overlay new old).take new.length = new := by
  simp [overlay]

@[simp] theorem overlay_drop (new old : List Byte) : (overlay new old).drop new.length = old.drop new.length := by
  simp [overlay]

@[simp] theorem overlay_length (new old : List Byte) :
    (overlay new old).length = max new.length old.length := by
  simp [overlay]; omega

@[simp] theorem readPayload_payload (s : State) :
    (readPayload s).payload = s.stream.read s.pos s.len.toNat := by
  simp [State.payload]

@[simp] theorem storeString_decoded (str : Str) (s : State) : (storeString str s).decoded = str := by
  simp [State.decoded]

@[simp] theorem read_length (m : Memory) (pos n : Nat) : (m.read pos n).length = min n (m.size - pos) := by
  simp [Memory.read]

/-- The first bytes of a buffer a read was laid into are the bytes read. -/
@[simp] theorem take_overlay_read (m : Memory) (pos n : Nat) (old : List Byte) :
    (overlay (m.read pos n) old).take (min n (m.size - pos)) = m.read pos n := by
  have h := overlay_take (m.read pos n) old
  rwa [read_length] at h

@[simp] theorem read_getElem (m : Memory) (pos n j : Nat) (h : j < (m.read pos n).length) :
    (m.read pos n)[j] = m.byteAt (pos + j) := by
  simp [Memory.read]

end Sys2Proof.Machine
end

