-- ==== Sys2Proof/Laws/Pv.lean ====
section
/-!
SUPPORT. What PV can do: one lemma per bit step, then the walk, `PV.START`, `PV.FINISH` and `PV.CHECK` from it.
-/

namespace Sys2Proof.Machine

/-! ### One bit -/

theorem pvBit_data {pv : Pv} (p b : Bool) (h : pv.i % 9 ≠ 8) : pvBit p b pv = pvDataBit b pv := by
  simp [pvBit, h]

/-- A parity bit that passes (R137). -/
theorem pvBit_pass {pv : Pv} {p b : Bool} (h : pv.i % 9 = 8) (hv : isViolation p pv.one b = false) :
    pvBit p b pv = { pv with one := 0, gdone := pv.gdone + 1, i := pv.i + 1 } := by
  simp [pvBit, pvParityBit, h, hv]

/-- A parity bit that fails (R139). -/
theorem pvBit_fail {pv : Pv} {p b : Bool} (h : pv.i % 9 = 8) (hv : isViolation p pv.one b = true) :
    pvBit p b pv = { pv with valid := false, run := .returned } := by
  simp [pvBit, pvParityBit, h, hv]

/-- What a bit step can do, whole: a data bit, a parity bit that passes, a parity bit that fails. -/
theorem pvBit_cases (p b : Bool) (pv : Pv) :
    (pv.i % 9 ≠ 8 ∧ pvBit p b pv = pvDataBit b pv) ∨
    (pv.i % 9 = 8 ∧ isViolation p pv.one b = false ∧
      pvBit p b pv = { pv with one := 0, gdone := pv.gdone + 1, i := pv.i + 1 }) ∨
    (pv.i % 9 = 8 ∧ isViolation p pv.one b = true ∧
      pvBit p b pv = { pv with valid := false, run := .returned }) := by
  by_cases h : pv.i % 9 = 8
  · cases hv : isViolation p pv.one b
    · exact Or.inr (Or.inl ⟨h, rfl, pvBit_pass h hv⟩)
    · exact Or.inr (Or.inr ⟨h, rfl, pvBit_fail h hv⟩)
  · exact Or.inl ⟨h, pvBit_data p b h⟩

@[simp] theorem pvBit_nout (p b : Bool) (pv : Pv) : (pvBit p b pv).nout = pv.nout := by
  rcases pvBit_cases p b pv with ⟨-, h⟩ | ⟨-, -, h⟩ | ⟨-, -, h⟩ <;> simp [h, pvDataBit]

@[simp] theorem pvBit_out_length (p b : Bool) (pv : Pv) : (pvBit p b pv).out.length = pv.out.length := by
  rcases pvBit_cases p b pv with ⟨-, h⟩ | ⟨-, -, h⟩ | ⟨-, -, h⟩ <;> simp [h, pvDataBit]

/-- A bit step that leaves PV running moves `pv_i` by one. -/
theorem pvBit_i_of_running {p b : Bool} {pv : Pv} (hr : (pvBit p b pv).run = .running) :
    (pvBit p b pv).i = pv.i + 1 := by
  rcases pvBit_cases p b pv with ⟨-, h⟩ | ⟨-, -, h⟩ | ⟨-, -, h⟩ <;> simp_all [pvDataBit]

/-- A running PV stays running or returns. -/
theorem pvBit_run {p b : Bool} {pv : Pv} (hr : pv.run = .running) :
    (pvBit p b pv).run = .running ∨ (pvBit p b pv).run = .returned := by
  rcases pvBit_cases p b pv with ⟨-, h⟩ | ⟨-, -, h⟩ | ⟨-, -, h⟩ <;> simp [h, pvDataBit, hr]

/-! ### The walk -/

theorem pvWalk_stopped {p : Bool} {bs : List Bool} {pv : Pv} (h : pv.run ≠ .running) : pvWalk p bs pv = pv := by
  cases bs with
  | nil => rfl
  | cons b bs => cases hr : pv.run <;> simp_all [pvWalk]

theorem pvWalk_cons {p b : Bool} {bs : List Bool} {pv : Pv} (h : pv.run = .running) :
    pvWalk p (b :: bs) pv = pvWalk p bs (pvBit p b pv) := by
  simp [pvWalk, h]

/-- A walk can be cut anywhere. -/
theorem pvWalk_append (p : Bool) (xs ys : List Bool) (pv : Pv) :
    pvWalk p (xs ++ ys) pv = pvWalk p ys (pvWalk p xs pv) := by
  induction xs generalizing pv with
  | nil => rfl
  | cons b bs ih =>
    by_cases h : pv.run = .running
    · rw [List.cons_append, pvWalk_cons h, pvWalk_cons h, ih]
    · rw [pvWalk_stopped h, pvWalk_stopped h, pvWalk_stopped h]

/-- An induction over walks, said once: what every bit step of a running PV keeps, the walk keeps. -/
theorem pvWalk_keeps {P : Pv → Prop} {p : Bool}
    (hbit : ∀ b pv, pv.run = .running → P pv → P (pvBit p b pv)) (bs : List Bool) (pv : Pv) (h : P pv) :
    P (pvWalk p bs pv) := by
  induction bs generalizing pv with
  | nil => exact h
  | cons b bs ih =>
    by_cases hr : pv.run = .running
    · rw [pvWalk_cons hr]
      exact ih _ (hbit b pv hr h)
    · rwa [pvWalk_stopped hr]

@[simp] theorem pvWalk_nout (p : Bool) (bs : List Bool) (pv : Pv) : (pvWalk p bs pv).nout = pv.nout :=
  pvWalk_keeps (P := fun q => q.nout = pv.nout) (fun _ _ _ h => by simpa using h) bs pv rfl

@[simp] theorem pvWalk_out_length (p : Bool) (bs : List Bool) (pv : Pv) :
    (pvWalk p bs pv).out.length = pv.out.length :=
  pvWalk_keeps (P := fun q => q.out.length = pv.out.length) (fun _ _ _ h => by simpa using h) bs pv rfl

theorem pvWalk_run {p : Bool} {pv : Pv} (bs : List Bool) (h : pv.run ≠ .idle) : (pvWalk p bs pv).run ≠ .idle :=
  pvWalk_keeps (P := fun q => q.run ≠ .idle)
    (fun b q hq _ => by rcases pvBit_run (p := p) (b := b) hq with h | h <;> simp [h]) bs pv h

/-- A walk that leaves PV running has walked every bit. -/
theorem pvWalk_i {p : Bool} {bs : List Bool} {pv : Pv} (h : (pvWalk p bs pv).run = .running) :
    (pvWalk p bs pv).i = pv.i + bs.length := by
  induction bs generalizing pv with
  | nil => rfl
  | cons b bs ih =>
    by_cases hr : pv.run = .running
    · rw [pvWalk_cons hr] at h ⊢
      have hb : (pvBit p b pv).run = .running := by
        by_contra hn
        rw [pvWalk_stopped hn] at h
        exact hn h
      rw [ih h, pvBit_i_of_running hb]
      simp; omega
    · rw [pvWalk_stopped hr] at h
      exact absurd h hr

/-! ### The ranges of R22 along a walk -/

theorem pvBit_inRange {p b : Bool} {pv : Pv} (h : pv.InRange) (hr : pv.run = .running) (hi : pv.i < 9 * pv.nout) :
    (pvBit p b pv).InRange := by
  have hbuf := h.buffer
  have hn := h.nout
  have ⟨h1, h2, h3⟩ := h.running hr
  have hb : b.toNat ≤ 1 := by cases b <;> simp
  have hn' : pv.nout ≤ 226 := hn
  rcases pvBit_cases p b pv with ⟨hk, e⟩ | ⟨hk, -, e⟩ | ⟨hk, -, e⟩
  · rw [e]
    constructor <;> simp only [pvDataBit, List.length_modify] <;> (try intro) <;> (try assumption) <;> omega
  · rw [e]
    constructor <;> simp only <;> (try intro) <;> (try assumption) <;> omega
  · rw [e]
    have h4 := h.one
    have h5 := h.gdone
    constructor <;> simp only <;> (try intro) <;> (try assumption) <;> omega

/-- A walk of no more bits than the buffer has room for keeps the ranges. -/
theorem pvWalk_inRange {p : Bool} {bs : List Bool} {pv : Pv} (h : pv.InRange)
    (hroom : pv.run = .running → pv.i + bs.length ≤ 9 * pv.nout) : (pvWalk p bs pv).InRange := by
  induction bs generalizing pv with
  | nil => exact h
  | cons b bs ih =>
    by_cases hr : pv.run = .running
    · rw [pvWalk_cons hr]
      have hl := hroom hr
      simp only [List.length_cons] at hl
      refine ih (pvBit_inRange h hr (by omega)) fun hb => ?_
      rw [pvBit_i_of_running hb, pvBit_nout]
      omega
    · rwa [pvWalk_stopped hr]

/-! ### Start, finish, check -/

@[simp] theorem bitString_length (data : List Byte) : (bitString data).length = 8 * data.length := by
  simp [bitString]

@[simp] theorem groupBitList_length (d : Byte) (p : Bool) : (groupBitList d p).length = 9 := by
  simp [groupBitList]

theorem pvStart_short {data : List Byte} (h : data.length = 1) (pv : Pv) :
    pvStart data pv = { pv with out := overlay data pv.out, nout := 1, valid := true, gdone := 0, run := .returned } := by
  simp [pvStart, h]

theorem pvStart_long {data : List Byte} (h : data.length ≠ 1) (pv : Pv) :
    pvStart data pv = { pv with
      i := 0, one := 0, gdone := 0
      nout := groupCount data.length
      out := overlay (List.replicate (groupCount data.length) 0) pv.out
      run := .running } := by
  simp [pvStart, h]

theorem pvStart_nout (data : List Byte) (pv : Pv) :
    (pvStart data pv).nout = if data.length = 1 then 1 else groupCount data.length := by
  by_cases h : data.length = 1 <;> simp [pvStart, h]

theorem pvStart_inRange {data : List Byte} {pv : Pv} (h : pv.InRange) (hl : data.length ≤ 255) :
    (pvStart data pv).InRange := by
  have hb : pv.out.length = 226 := h.buffer
  have hi := h.i
  have ho := h.one
  by_cases h1 : data.length = 1
  · rw [pvStart_short h1]
    constructor <;> simp [h1, hb] <;> omega
  · rw [pvStart_long h1]
    have hg : groupCount data.length ≤ 226 := by simp only [groupCount]; omega
    constructor <;> simp [hb] <;> omega

theorem pvFinish_run {pv : Pv} (h : pv.run ≠ .idle) : (pvFinish pv).run = .returned := by
  cases hr : pv.run <;> simp_all [pvFinish]

theorem pvFinish_cases (pv : Pv) :
    pvFinish pv = pv ∨ (pv.run = .running ∧ pvFinish pv = { pv with valid := true, run := .returned }) := by
  cases hr : pv.run <;> simp [pvFinish, hr]

theorem pvFinish_inRange {pv : Pv} (h : pv.InRange) : (pvFinish pv).InRange := by
  rcases pvFinish_cases pv with e | ⟨-, e⟩ <;> rw [e]
  · exact h
  · exact ⟨h.i, h.one, h.buffer, h.nout, h.gdone, fun hr => by simp at hr⟩

/-- `PV.CHECK` always returns. -/
theorem pvCheck_run (p : Bool) (data : List Byte) (pv : Pv) : (pvCheck p data pv).run = .returned := by
  refine pvFinish_run (pvWalk_run _ ?_)
  by_cases h : data.length = 1 <;> simp [pvStart, h]

theorem pvCheck_nout (p : Bool) (data : List Byte) (pv : Pv) :
    (pvCheck p data pv).nout = if data.length = 1 then 1 else groupCount data.length := by
  rw [← pvStart_nout data pv]
  rcases pvFinish_cases (pvWalk p ((bitString data).take (bitCount data.length)) (pvStart data pv)) with e | ⟨-, e⟩ <;>
    simp [pvCheck, e]

theorem pvCheck_inRange {p : Bool} {data : List Byte} {pv : Pv} (h : pv.InRange) (hl : data.length ≤ 255) :
    (pvCheck p data pv).InRange := by
  refine pvFinish_inRange (pvWalk_inRange (pvStart_inRange h hl) fun hr => ?_)
  by_cases h1 : data.length = 1
  · simp [pvStart_short h1] at hr
  · rw [pvStart_long h1]
    simp [bitCount, groupCount]

/-- Walking one group from where PV stands keeps the ranges. -/
theorem pvGroup_inRange {p : Bool} {d : Byte} {b : Bool} {pv : Pv} (h : pv.InRange) (hi : pv.i < 9 * pv.nout) :
    (pvGroup p d b pv).InRange := by
  refine pvWalk_inRange h fun _ => ?_
  simp only [List.length_drop, groupBitList_length]
  omega

/-- PV idle again after its result is used. -/
theorem pvIdle_inRange {pv : Pv} (h : pv.InRange) : ({ pv with run := .idle } : Pv).InRange :=
  ⟨h.i, h.one, h.buffer, h.nout, h.gdone, fun hr => by simp at hr⟩

theorem pvReset_inRange : pvReset.InRange := by
  constructor <;> simp [pvReset]

theorem unpacked_length_le (pv : Pv) : pv.unpacked.length ≤ pv.nout := by
  simp [Pv.unpacked]

end Sys2Proof.Machine
end

