-- ==== Sys2Proof/Laws/Decoders.lean ====
section
/-!
SUPPORT. What a decoder and the decode phase can do (spec/40_decoders.md, R191).
-/

namespace Sys2Proof.Machine

@[simp] theorem hex_nil : hex [] = [] := rfl

@[simp] theorem hex_cons (b : Byte) (bs : List Byte) :
    hex (b :: bs) = hexDigit (b >>> 4) :: hexDigit (b &&& 0x0F) :: hex bs := rfl

theorem hex_length (bytes : List Byte) : (hex bytes).length = 2 * bytes.length := by
  induction bytes with
  | nil => rfl
  | cons b bs ih => simp [ih]; omega

theorem parHexString_length (pv : Pv) :
    (parHexString pv).length = 2 * pv.unpacked.length + (if pv.valid then 0 else 1) := by
  cases h : pv.valid <;> simp [parHexString, h, hex_length]

/-- Text gives one character a byte, or stops. -/
theorem decTextFrom_length {policy : TextPolicy} {j : Nat} {bs : List Byte} {str : Str}
    (h : decTextFrom policy j bs = .str str) : str.length = bs.length := by
  induction bs generalizing j str with
  | nil =>
    simp only [decTextFrom, DecodeResult.str.injEq] at h
    simp [← h]
  | cons b bs ih =>
    have key : ∀ c, DecodeResult.cons c (decTextFrom policy (j + 1) bs) = .str str →
        str.length = (b :: bs).length := by
      intro c hc
      cases hr : decTextFrom policy (j + 1) bs with
      | str s =>
        rw [hr] at hc
        simp only [DecodeResult.cons, DecodeResult.str.injEq] at hc
        simp [← hc, ih hr]
      | invalidText k b' => rw [hr] at hc; cases hc
    simp only [decTextFrom] at h
    split at h
    · exact key _ h
    · cases policy with
      | fault => cases h
      | replace c => exact key _ h
      | passthrough => exact key _ h

/-- Text stops under the policy `fault` only (R112). -/
theorem policy_of_invalidText {policy : TextPolicy} {k j : Nat} {bs : List Byte} {b : Byte}
    (h : decTextFrom policy k bs = .invalidText j b) : policy = .fault := by
  induction bs generalizing k with
  | nil => cases h
  | cons x xs ih =>
    simp only [decTextFrom] at h
    cases hr : decTextFrom policy (k + 1) xs with
    | str s => rw [hr] at h; split at h <;> [cases h; skip]; cases policy <;> simp_all [DecodeResult.cons]
    | invalidText i c =>
      have : DecodeResult.cons x (.invalidText i c) = .invalidText i c := rfl
      cases policy with
      | fault => rfl
      | replace c' => rw [hr] at h; exact ih (hr.trans (by simpa [DecodeResult.cons] using h))
      | passthrough => rw [hr] at h; exact ih (hr.trans (by simpa [DecodeResult.cons] using h))

/-- What the end of a decode can do: store a string, or record the fault. -/
theorem finishDecode_cases (r : DecodeResult) (s : State) :
    (∃ str, r = .str str ∧ finishDecode r s = storeString str s) ∨
    (∃ j b, r = .invalidText j b ∧ finishDecode r s = raise .invalidTextEncoding s) := by
  cases r with
  | str str => exact Or.inl ⟨str, rfl, rfl⟩
  | invalidText j b => exact Or.inr ⟨j, b, rfl, rfl⟩

/-- `DEC.PARHEX`'s last part changes the string, the phase and PV's run state only. -/
theorem renderParity_eq (s : State) :
    renderParity s = storeString (parHexString s.pv) { s with pv := { s.pv with run := .idle } } := by
  cases h : s.pv.valid <;> simp [renderParity, h]

/-- What the decode phase can do: it stores a string and, for ParityHex, PV's result; or a Text record faults under the
policy `fault`. -/
theorem decodeAs_cases (kind : DecoderKind) (s : State) :
    (kind ≠ .parityHex ∧ ∃ str, decodeString s.cfg kind s.payload = .str str ∧
      decodeAs kind s = storeString str s) ∨
    (kind = .parityHex ∧ decodeAs kind s =
      storeString (parHexString (pvCheck s.cfg.parOdd s.payload s.pv))
        { s with pv := { pvCheck s.cfg.parOdd s.payload s.pv with run := .idle } }) ∨
    (kind = .text ∧ (∃ j b, decodeString s.cfg kind s.payload = .invalidText j b) ∧
      decodeAs kind s = raise .invalidTextEncoding s) := by
  cases kind with
  | empty => exact Or.inl ⟨by simp, [], rfl, rfl⟩
  | text =>
    rcases finishDecode_cases (decText s.cfg.textPolicy s.payload) s with ⟨str, h, e⟩ | ⟨j, b, h, e⟩
    · exact Or.inl ⟨by simp, str, h, e⟩
    · exact Or.inr (Or.inr ⟨rfl, ⟨j, b, h⟩, e⟩)
  | rawHex => exact Or.inl ⟨by simp, hex s.payload, rfl, rfl⟩
  | parityHex => exact Or.inr (Or.inl ⟨rfl, by rw [decodeAs, renderParity_eq]⟩)

/-- A decoded string fits `dstr` (R118). -/
theorem decodeString_length_le {cfg : Config} {kind : DecoderKind} {payload : List Byte} {str : Str}
    (hk : kind ≠ .parityHex) (hl : payload.length ≤ 255) (h : decodeString cfg kind payload = .str str) :
    str.length ≤ 510 := by
  cases kind with
  | empty =>
    simp only [decodeString, decEmpty, DecodeResult.str.injEq] at h
    simp [← h]
  | text => have := decTextFrom_length h; omega
  | rawHex =>
    simp only [decodeString, decRawHex, DecodeResult.str.injEq] at h
    rw [← h, hex_length]; omega
  | parityHex => exact absurd rfl hk

end Sys2Proof.Machine
end

