-- ==== Sys2Proof/Laws/Memory.lean ====
section
/-!
SUPPORT. The laws of the stream's form: a write keeps it canonical, a read gives what was written last, and two
canonical streams that read alike are equal.
-/

namespace Sys2Proof.Machine

/-! ### One cell -/

theorem lookupCell_of_lt {a : Nat} {cs : List Host.Cell} (h : ∀ c ∈ cs, a < c.1) : lookupCell a cs = 0#8 := by
  induction cs with
  | nil => rfl
  | cons c cs ih =>
    have h1 := h c (by simp)
    have h2 : ¬ c.1 = a := by omega
    simp [lookupCell, h2, ih fun d hd => h d (by simp [hd])]

theorem mem_insertCell {a : Nat} {v : Byte} {cs : List Host.Cell} {c : Host.Cell}
    (h : c ∈ insertCell a v cs) : (c = (a, v) ∧ v ≠ 0#8) ∨ c ∈ cs := by
  induction cs with
  | nil =>
    by_cases hv : v = 0#8
    · simp [insertCell, hv] at h
    · simp only [insertCell, if_neg hv, List.mem_singleton] at h
      exact Or.inl ⟨h, hv⟩
  | cons d cs ih =>
    obtain ⟨b, w⟩ := d
    simp only [insertCell] at h
    split at h
    · split at h
      · exact Or.inr h
      · rename_i hv
        rcases List.mem_cons.mp h with rfl | h
        · exact Or.inl ⟨rfl, hv⟩
        · exact Or.inr h
    · split at h
      · split at h
        · exact Or.inr (List.mem_cons_of_mem _ h)
        · rename_i hv
          rcases List.mem_cons.mp h with rfl | h
          · exact Or.inl ⟨rfl, hv⟩
          · exact Or.inr (List.mem_cons_of_mem _ h)
      · rcases List.mem_cons.mp h with rfl | h
        · exact Or.inr (by simp)
        · exact (ih h).imp id (List.mem_cons_of_mem _)

theorem pairwise_insertCell {a : Nat} {v : Byte} {cs : List Host.Cell}
    (h : List.Pairwise (fun x y : Host.Cell => x.1 < y.1) cs) :
    List.Pairwise (fun x y : Host.Cell => x.1 < y.1) (insertCell a v cs) := by
  induction cs with
  | nil => by_cases hv : v = 0#8 <;> simp [insertCell, hv]
  | cons d cs ih =>
    obtain ⟨b, w⟩ := d
    have hd := List.pairwise_cons.mp h
    simp only [insertCell]
    split
    · rename_i hab
      split
      · exact h
      · refine List.pairwise_cons.mpr ⟨fun c hc => ?_, h⟩
        rcases List.mem_cons.mp hc with rfl | hc
        · exact hab
        · exact lt_trans hab (hd.1 c hc)
    · split
      · rename_i hab
        split
        · exact hd.2
        · exact List.pairwise_cons.mpr ⟨fun c hc => by simpa [hab] using hd.1 c hc, hd.2⟩
      · refine List.pairwise_cons.mpr ⟨fun c hc => ?_, ih hd.2⟩
        rcases mem_insertCell hc with ⟨rfl, -⟩ | hc
        · simp; omega
        · exact hd.1 c hc

theorem lookupCell_insertCell_self {a : Nat} {v : Byte} {cs : List Host.Cell}
    (h : List.Pairwise (fun x y : Host.Cell => x.1 < y.1) cs) : lookupCell a (insertCell a v cs) = v := by
  induction cs with
  | nil => by_cases hv : v = 0#8 <;> simp [insertCell, lookupCell, hv]
  | cons d cs ih =>
    obtain ⟨b, w⟩ := d
    have hd := List.pairwise_cons.mp h
    by_cases hab : a < b
    · by_cases hv : v = 0#8
      · subst hv
        simp only [insertCell, hab, if_true]
        refine lookupCell_of_lt fun c hc => ?_
        rcases List.mem_cons.mp hc with rfl | hc
        · exact hab
        · exact lt_trans hab (hd.1 c hc)
      · simp [insertCell, hab, hv, lookupCell]
    · by_cases hab' : a = b
      · by_cases hv : v = 0#8
        · subst hv hab'
          simp only [insertCell, lt_irrefl, if_false, if_true]
          exact lookupCell_of_lt hd.1
        · simp [insertCell, hab', hv, lookupCell]
      · have hba : ¬ b = a := fun e => hab' e.symm
        simp [insertCell, hab, hab', hba, lookupCell, ih hd.2]

theorem lookupCell_insertCell_other {a a' : Nat} {v : Byte} {cs : List Host.Cell} (hne : a' ≠ a) :
    lookupCell a' (insertCell a v cs) = lookupCell a' cs := by
  have hne' : ¬ a = a' := fun e => hne e.symm
  induction cs with
  | nil => by_cases hv : v = 0#8 <;> simp [insertCell, lookupCell, hv, hne']
  | cons d cs ih =>
    obtain ⟨b, w⟩ := d
    simp only [insertCell]
    split
    · split <;> simp [lookupCell, hne']
    · split
      · rename_i hab
        subst hab
        split <;> simp [lookupCell, hne']
      · simp [lookupCell, ih]

/-! ### The stream -/

/-- Every write of the host keeps the canonical form. -/
theorem write_wf {m : Memory} (h : m.wf) (a : Nat) (v : Byte) : (m.write a v).wf := by
  refine ⟨pairwise_insertCell h.1, fun c hc => ?_⟩
  rcases mem_insertCell hc with ⟨rfl, hv⟩ | hc
  · exact ⟨by simp [Memory.write], hv⟩
  · have := h.2 c hc
    exact ⟨by simp only [Memory.write]; omega, this.2⟩

/-- A read after a write to the same place gives the byte written. -/
theorem byteAt_write_self {m : Memory} (h : m.wf) (a : Nat) (v : Byte) : (m.write a v).byteAt a = v := by
  simp [Memory.byteAt, Memory.write, lookupCell_insertCell_self h.1]

/-- A write leaves every other place of the stream alone. -/
theorem byteAt_write_other (m : Memory) {a a' : Nat} (v : Byte) (hne : a' ≠ a) (hin : a' < m.size) :
    (m.write a v).byteAt a' = m.byteAt a' := by
  have : a' < max m.size (a + 1) := by omega
  simp [Memory.byteAt, Memory.write, lookupCell_insertCell_other hne, hin, this]

@[simp] theorem write_size (m : Memory) (a : Nat) (v : Byte) : (m.write a v).size = max m.size (a + 1) := rfl

theorem writeBytes_wf {m : Memory} (h : m.wf) (a : Nat) (vs : List Byte) : (m.writeBytes a vs).wf := by
  induction vs generalizing m a with
  | nil => exact h
  | cons v vs ih => exact ih (write_wf h a v) (a + 1)

theorem writeBytes_size (m : Memory) (a : Nat) (vs : List Byte) :
    (m.writeBytes a vs).size = if vs = [] then m.size else max m.size (a + vs.length) := by
  induction vs generalizing m a with
  | nil => rfl
  | cons v vs ih =>
    simp only [Memory.writeBytes, ih]
    split
    · simp_all
    · simp_all; omega

/-- A block write leaves the bytes below its address alone. -/
theorem byteAt_writeBytes_below (m : Memory) {a a' : Nat} (vs : List Byte) (hlt : a' < a) (hin : a' < m.size) :
    (m.writeBytes a vs).byteAt a' = m.byteAt a' := by
  induction vs generalizing m a with
  | nil => rfl
  | cons v vs ih =>
    rw [Memory.writeBytes, ih (m.write a v) (by omega) (by simp; omega), byteAt_write_other m v (by omega) hin]

/-- A block write puts its bytes where it says. -/
theorem byteAt_writeBytes {m : Memory} (h : m.wf) (a : Nat) (vs : List Byte) (j : Nat) (hj : j < vs.length) :
    (m.writeBytes a vs).byteAt (a + j) = vs[j] := by
  induction vs generalizing m a j with
  | nil => simp at hj
  | cons v vs ih =>
    cases j with
    | zero =>
      rw [Memory.writeBytes, byteAt_writeBytes_below _ vs (by omega) (by simp), Nat.add_zero,
        byteAt_write_self h]
      rfl
    | succ j =>
      have := ih (write_wf h a v) (a + 1) j (by simpa using hj)
      simpa [Memory.writeBytes, Nat.add_assoc, Nat.add_comm 1] using this

/-- The stream of a byte sequence is canonical. -/
theorem ofBytes_wf (bytes : List Byte) : (Memory.ofBytes bytes).wf :=
  writeBytes_wf (by simp [Memory.wf]) 0 bytes

/-- `len(S)` of a presented stream (R50). -/
@[simp] theorem ofBytes_size (bytes : List Byte) : (Memory.ofBytes bytes).size = bytes.length := by
  cases bytes <;> simp [Memory.ofBytes, writeBytes_size]

/-- `S[j]` of a presented stream (R50). -/
theorem ofBytes_byteAt (bytes : List Byte) (j : Nat) (hj : j < bytes.length) :
    (Memory.ofBytes bytes).byteAt j = bytes[j] := by
  have h := byteAt_writeBytes (m := { cells := [], size := 0 }) (by simp [Memory.wf]) 0 bytes j hj
  simpa [Memory.ofBytes] using h

/-- The stream a machine holds after reset is canonical. -/
theorem reset_stream_wf : State.reset.stream.wf := by simp [State.reset, resetWith, Memory.wf]

end Sys2Proof.Machine
end

