-- ==== Sys2Proof/Laws/Step.lean ====
section
/-!
SUPPORT. What a record, an instruction and a step can do, said once each.
-/

namespace Sys2Proof.Machine

theorem atHeader_next_iff {s t u : State} : atHeader s t = .next u ↔ s.phase = .hdr ∧ u = t := by
  unfold atHeader
  cases h : s.phase <;> simp [eq_comm]

theorem atHeader_of_hdr {s : State} (h : s.phase = .hdr) (t : State) : atHeader s t = .next t := by
  simp [atHeader, h]

theorem atGroup_next_iff {s t u : State} :
    atGroup s t = .next u ↔ s.phase = .dec ∧ s.pv.run = .running ∧ s.pv.i < 9 * s.pv.nout ∧ u = t := by
  unfold atGroup
  by_cases hp : s.phase = .dec
  · by_cases hc : s.pv.run = .running ∧ s.pv.i < 9 * s.pv.nout
    · simp [hp, hc, eq_comm]
    · simp only [hp, if_neg hc]
      refine ⟨fun h => ?_, fun h => absurd ⟨h.2.1, h.2.2.1⟩ hc⟩
      cases h
  · cases h : s.phase <;> simp_all

theorem atGroup_of_running {s : State} (hp : s.phase = .dec) (hr : s.pv.run = .running)
    (hi : s.pv.i < 9 * s.pv.nout) (t : State) : atGroup s t = .next t :=
  atGroup_next_iff.mpr ⟨hp, hr, hi, rfl⟩

/-- The state a record has before its decoder runs (R172, R174). -/
abbrev beforeDecode (c len : Byte) (ts : Half) (s : State) : State := readPayload (latchHeader c len ts .pay s)

/-- What a record that is no sentinel can do: an entry from its string; for ParityHex also PV's result; or the text
fault. -/
theorem recordBody_cases (kind : DecoderKind) (c len : Byte) (ts : Half) (s : State) :
    (kind ≠ .parityHex ∧ ∃ str, decodeString s.cfg kind (beforeDecode c len ts s).payload = .str str ∧
      recordBody kind c len ts s = emitEntry (storeString str (beforeDecode c len ts s))) ∨
    (kind = .parityHex ∧ recordBody kind c len ts s =
      emitEntry (storeString (parHexString (pvCheck s.cfg.parOdd (beforeDecode c len ts s).payload s.pv))
        { beforeDecode c len ts s with
          pv := { pvCheck s.cfg.parOdd (beforeDecode c len ts s).payload s.pv with run := .idle } })) ∨
    (kind = .text ∧ (∃ j b, decodeString s.cfg kind (beforeDecode c len ts s).payload = .invalidText j b) ∧
      recordBody kind c len ts s = raise .invalidTextEncoding (beforeDecode c len ts s)) := by
  rcases decodeAs_cases kind (beforeDecode c len ts s) with ⟨hk, str, h, e⟩ | ⟨hk, e⟩ | ⟨hk, hi, e⟩
  · exact Or.inl ⟨hk, str, h, by simp [recordBody, e, emitIfDecoded]⟩
  · exact Or.inr (Or.inl ⟨hk, by simp only [recordBody, e, emitIfDecoded]; simp⟩)
  · exact Or.inr (Or.inr ⟨hk, hi, by simp [recordBody, e, emitIfDecoded]⟩)

/-- The same in two cases: an entry from some string and some PV registers, which only ParityHex changes; or the text
fault, under the policy `fault`. -/
theorem recordBody_forms (kind : DecoderKind) (c len : Byte) (ts : Half) (s : State) :
    (∃ str pv, recordBody kind c len ts s = emitEntry (storeString str { beforeDecode c len ts s with pv := pv }) ∧
      (kind ≠ .parityHex → pv = s.pv ∧ decodeString s.cfg kind (beforeDecode c len ts s).payload = .str str) ∧
      (kind = .parityHex →
        pv = { pvCheck s.cfg.parOdd (beforeDecode c len ts s).payload s.pv with run := .idle } ∧
        str = parHexString (pvCheck s.cfg.parOdd (beforeDecode c len ts s).payload s.pv))) ∨
    (kind = .text ∧ s.cfg.textPolicy = .fault ∧
      recordBody kind c len ts s = raise .invalidTextEncoding (beforeDecode c len ts s)) := by
  rcases recordBody_cases kind c len ts s with ⟨hk, str, h, e⟩ | ⟨hk, e⟩ | ⟨hk, ⟨j, b, h⟩, e⟩
  · exact Or.inl ⟨str, s.pv, e, fun _ => ⟨rfl, h⟩, fun h => absurd h hk⟩
  · exact Or.inl ⟨_, _, e, fun h => absurd hk h, fun _ => ⟨rfl, rfl⟩⟩
  · subst hk
    exact Or.inr ⟨rfl, policy_of_invalidText h, e⟩

/-- What `exec` can answer as a next state: a sentinel's latches, a record's body, or one group. -/
theorem exec_cases {i : Instr} {s t : State} (h : exec i s = .next t) :
    (s.phase = .hdr ∧ ∃ c len ts, i = .empty c len ts ∧ t = latchHeader c len ts .done s) ∨
    (s.phase = .hdr ∧ (∀ d p, i ≠ .grp9 d p) ∧ ∃ kind c len ts, t = recordBody kind c len ts s) ∨
    (s.phase = .dec ∧ s.pv.run = .running ∧ s.pv.i < 9 * s.pv.nout ∧
      ∃ d p, i = .grp9 d p ∧ t = { s with pv := pvGroup s.cfg.parOdd d p s.pv }) := by
  cases i with
  | empty c len ts =>
    obtain ⟨hp, rfl⟩ := atHeader_next_iff.mp h
    exact Or.inl ⟨hp, c, len, ts, rfl, rfl⟩
  | generic len ts =>
    obtain ⟨hp, rfl⟩ := atHeader_next_iff.mp h
    exact Or.inr (Or.inl ⟨hp, by simp, .text, 0x10, len, ts, rfl⟩)
  | unknown c len ts =>
    obtain ⟨hp, rfl⟩ := atHeader_next_iff.mp h
    exact Or.inr (Or.inl ⟨hp, by simp, .rawHex, c, len, ts, rfl⟩)
  | resetApp c len ts =>
    obtain ⟨hp, rfl⟩ := atHeader_next_iff.mp h
    exact Or.inr (Or.inl ⟨hp, by simp, .empty, c, len, ts, rfl⟩)
  | codecRxWParity c len ts =>
    obtain ⟨hp, rfl⟩ := atHeader_next_iff.mp h
    exact Or.inr (Or.inl ⟨hp, by simp, .parityHex, c, len, ts, rfl⟩)
  | recEmptyDec c len ts =>
    obtain ⟨hp, rfl⟩ := atHeader_next_iff.mp h
    exact Or.inr (Or.inl ⟨hp, by simp, .empty, c, len, ts, rfl⟩)
  | recText c len ts =>
    obtain ⟨hp, rfl⟩ := atHeader_next_iff.mp h
    exact Or.inr (Or.inl ⟨hp, by simp, .text, c, len, ts, rfl⟩)
  | recRawHex c len ts =>
    obtain ⟨hp, rfl⟩ := atHeader_next_iff.mp h
    exact Or.inr (Or.inl ⟨hp, by simp, .rawHex, c, len, ts, rfl⟩)
  | recParHex c len ts =>
    obtain ⟨hp, rfl⟩ := atHeader_next_iff.mp h
    exact Or.inr (Or.inl ⟨hp, by simp, .parityHex, c, len, ts, rfl⟩)
  | grp9 d p =>
    obtain ⟨hp, hr, hi, rfl⟩ := atGroup_next_iff.mp h
    exact Or.inr (Or.inr ⟨hp, hr, hi, d, p, rfl, rfl⟩)

/-! ### The fetch -/

/-- A whole header is read as its four bytes. -/
theorem read_header {m : Memory} {pos : Nat} (h : ¬ m.size - pos < 4) :
    m.read pos 4 = [m.byteAt pos, m.byteAt (pos + 1), m.byteAt (pos + 2), m.byteAt (pos + 3)] := by
  have : min 4 (m.size - pos) = 4 := by omega
  simp [Memory.read, this, List.range_succ]

/-- The header of a step: short, or four bytes that decode (R171, R172). -/
theorem decode_read_cases (reg : Registry) (m : Memory) (pos : Nat) :
    (m.size - pos < 4 ∧ decode reg (m.read pos 4) = .error .shortHeader) ∨
    (¬ m.size - pos < 4 ∧ decode reg (m.read pos 4) = .ok (instrAt reg m pos, [])) := by
  by_cases h : m.size - pos < 4
  · refine Or.inl ⟨h, ?_⟩
    have hl : (m.read pos 4).length < 4 := by rw [read_length]; omega
    match hm : m.read pos 4, hl with
    | [], _ => rfl
    | [_], _ => rfl
    | [_, _], _ => rfl
    | [_, _, _], _ => rfl
  · exact Or.inr ⟨h, by rw [read_header h]; rfl⟩

/-- The decoder's instruction runs the decoder its code's entry names, or ends the stream where the name is "EMPTY"
(R110, R173). -/
theorem exec_decodeHeader (reg : Registry) (c len hi lo : Byte) (s : State) (h : s.phase = .hdr) :
    ((reg.lookup c).isSentinel = true ∧
      exec (decodeHeader reg c len hi lo) s = .next (latchHeader c len (tsOfBytes hi lo) .done s)) ∨
    ((reg.lookup c).isSentinel = false ∧
      exec (decodeHeader reg c len hi lo) s = .next (recordBody (reg.lookup c).kind c len (tsOfBytes hi lo) s)) := by
  cases hs : (reg.lookup c).isSentinel
  · refine Or.inr ⟨rfl, ?_⟩
    simp only [decodeHeader, hs, Bool.false_eq_true, if_false]
    cases hk : (reg.lookup c).kind <;> simp only <;> split <;> (try subst_vars) <;> exact atHeader_of_hdr h _
  · exact Or.inl ⟨rfl, by simp only [decodeHeader, hs, if_true]; exact atHeader_of_hdr h _⟩

/-- What `LD.STEP` can do (R190). -/
theorem ldStep_cases (s : State) :
    (s.stream.size - s.pos < 4 ∧ ldStep s = endShort s) ∨
    (¬ s.stream.size - s.pos < 4 ∧ (s.cfg.registry.lookup (headerCode s.stream s.pos)).isSentinel = true ∧
      ldStep s = latchHeader (headerCode s.stream s.pos) (headerLen s.stream s.pos) (headerTs s.stream s.pos) .done s) ∨
    (¬ s.stream.size - s.pos < 4 ∧ (s.cfg.registry.lookup (headerCode s.stream s.pos)).isSentinel = false ∧
      ldStep s = recordBody (s.cfg.registry.lookup (headerCode s.stream s.pos)).kind
        (headerCode s.stream s.pos) (headerLen s.stream s.pos) (headerTs s.stream s.pos) s) := by
  unfold ldStep rrNext
  by_cases h : s.stream.size - s.pos < 4
  · simp [isShort, h]
  · cases hs : (s.cfg.registry.lookup (headerCode s.stream s.pos)).isSentinel <;>
      simp [isShort, h, isSentinel, hs, recordBody, decodeByRegistry]

/-- A run stays where no step is enabled. -/
theorem ldRun_of_terminal {s : State} (h : s.phase.terminal = true) (k : Nat) : ldRun k s = s := by
  cases k <;> simp [ldRun, h]

theorem ldRun_succ {s : State} (h : s.phase.terminal = false) (k : Nat) : ldRun (k + 1) s = ldRun k (ldStep s) := by
  simp [ldRun, h]

/-! ### The step -/

theorem step_of_hdr {s : State} (hl : s.cfg.legal = true) (hp : s.phase = .hdr) : step s = stepRecord s := by
  simp [step, hl, hp]

theorem step_of_dec {s : State} (hl : s.cfg.legal = true) (hp : s.phase = .dec) : step s = stepDecode s := by
  simp [step, hl, hp]

/-- What `P_DEC` begins: PV for ParityHex, the whole decode for the other kinds. -/
theorem decodePhase_cases (s : State) :
    ((s.cfg.registry.lookup s.ev).kind = .parityHex ∧ decodePhase s = { s with pv := pvStart s.payload s.pv }) ∨
    ((s.cfg.registry.lookup s.ev).kind ≠ .parityHex ∧
      decodePhase s = decodeAs (s.cfg.registry.lookup s.ev).kind s) := by
  unfold decodePhase
  cases (s.cfg.registry.lookup s.ev).kind <;> simp

/-- What a step in `P_HDR` can do. -/
theorem stepRecord_cases {s : State} (h : s.phase = .hdr) :
    (s.stream.size - s.pos < 4 ∧ stepRecord s = .next (endShort s)) ∨
    (¬ s.stream.size - s.pos < 4 ∧ (s.cfg.registry.lookup (headerCode s.stream s.pos)).isSentinel = true ∧
      stepRecord s = .next (latchHeader (headerCode s.stream s.pos) (headerLen s.stream s.pos)
        (headerTs s.stream s.pos) .done s)) ∨
    (¬ s.stream.size - s.pos < 4 ∧ (s.cfg.registry.lookup (headerCode s.stream s.pos)).isSentinel = false ∧
      stepRecord s = .next (recordBody (s.cfg.registry.lookup (headerCode s.stream s.pos)).kind
        (headerCode s.stream s.pos) (headerLen s.stream s.pos) (headerTs s.stream s.pos) s)) := by
  rcases decode_read_cases s.cfg.registry s.stream s.pos with ⟨hs, e⟩ | ⟨hs, e⟩
  · exact Or.inl ⟨hs, by simp [stepRecord, e]⟩
  · rcases exec_decodeHeader s.cfg.registry (s.stream.byteAt s.pos) (s.stream.byteAt (s.pos + 1))
      (s.stream.byteAt (s.pos + 2)) (s.stream.byteAt (s.pos + 3)) s h with ⟨hn, e'⟩ | ⟨hn, e'⟩
    · exact Or.inr (Or.inl ⟨hs, hn, by simp only [stepRecord, e]; exact e'⟩)
    · exact Or.inr (Or.inr ⟨hs, hn, by simp only [stepRecord, e]; exact e'⟩)

/-- What a step in `P_DEC` can do. -/
theorem stepDecode_cases {s : State} (h : s.phase = .dec) :
    (s.pv.run = .idle ∧ stepDecode s = .next (decodePhase s)) ∨
    (s.pv.run = .running ∧ s.pv.i < 9 * s.pv.nout ∧ stepDecode s = .next { s with
      pv := pvGroup s.cfg.parOdd (groupData s.payload (s.pv.i / 9)) (groupParity s.payload (s.pv.i / 9)) s.pv }) ∨
    (s.pv.run = .running ∧ ¬ s.pv.i < 9 * s.pv.nout ∧ stepDecode s = .next (finishPhase s)) ∨
    (s.pv.run = .returned ∧ stepDecode s = .next (renderParity s)) := by
  cases hr : s.pv.run with
  | idle => exact Or.inl ⟨rfl, by simp [stepDecode, hr]⟩
  | running =>
    by_cases hi : s.pv.i < 9 * s.pv.nout
    · refine Or.inr (Or.inl ⟨rfl, hi, ?_⟩)
      simp only [stepDecode, hr, if_pos hi]
      exact atGroup_of_running h hr hi _
    · exact Or.inr (Or.inr (Or.inl ⟨rfl, hi, by simp [stepDecode, hr, hi]⟩))
  | returned => exact Or.inr (Or.inr (Or.inr ⟨rfl, by simp [stepDecode, hr, renderPhase]⟩))

/-- What a step can answer as a next state. -/
theorem step_cases {s t : State} (h : step s = .next t) :
    s.cfg.legal = true ∧
    ((s.phase = .hdr ∧ stepRecord s = .next t) ∨ (s.phase = .pay ∧ t = readPayload s) ∨
      (s.phase = .dec ∧ stepDecode s = .next t) ∨ (s.phase = .emit ∧ t = emitEntry s)) := by
  unfold step at h
  by_cases hl : s.cfg.legal = true
  · refine ⟨hl, ?_⟩
    rw [if_pos hl] at h
    cases hp : s.phase <;> simp only [hp] at h
    · exact Or.inl ⟨rfl, h⟩
    · exact Or.inr (Or.inl ⟨rfl, by cases h; rfl⟩)
    · exact Or.inr (Or.inr (Or.inl ⟨rfl, h⟩))
    · exact Or.inr (Or.inr (Or.inr ⟨rfl, by cases h; rfl⟩))
    · cases h
    · cases h
  · rw [if_neg hl] at h
    cases h

end Sys2Proof.Machine
end

