-- ==== Sys2Proof/Laws/PerInstr.lean ====
section
/-!
SUPPORT. Statements made per instruction, about the instruction as syntax: the length of its encoding.
-/

namespace Sys2Proof.Laws.EncodedLength

/-- Every header is four bytes (spec/30_encoding.md R93); a group's nine bits take two (R82, R83). -/
def Statement (i : Instr) : Prop :=
  (encode i).length = (match i with
    | .empty _ _ _ => headerBytes
    | .generic _ _ => headerBytes
    | .unknown _ _ _ => headerBytes
    | .resetApp _ _ _ => headerBytes
    | .codecRxWParity _ _ _ => headerBytes
    | .recEmptyDec _ _ _ => headerBytes
    | .recText _ _ _ => headerBytes
    | .recRawHex _ _ _ => headerBytes
    | .recParHex _ _ _ => headerBytes
    | .grp9 _ _ => (groupBits + 7) / 8)

theorem empty (c len : Byte) (ts : Half) : Statement (.empty c len ts) := rfl
theorem generic (len : Byte) (ts : Half) : Statement (.generic len ts) := rfl
theorem unknown (c len : Byte) (ts : Half) : Statement (.unknown c len ts) := rfl
theorem resetApp (c len : Byte) (ts : Half) : Statement (.resetApp c len ts) := rfl
theorem codecRxWParity (c len : Byte) (ts : Half) : Statement (.codecRxWParity c len ts) := rfl
theorem recEmptyDec (c len : Byte) (ts : Half) : Statement (.recEmptyDec c len ts) := rfl
theorem recText (c len : Byte) (ts : Half) : Statement (.recText c len ts) := rfl
theorem recRawHex (c len : Byte) (ts : Half) : Statement (.recRawHex c len ts) := rfl
theorem recParHex (c len : Byte) (ts : Half) : Statement (.recParHex c len ts) := rfl
theorem grp9 (d : Byte) (p : Bool) : Statement (.grp9 d p) := by cases p <;> rfl

end Sys2Proof.Laws.EncodedLength
end

