-- ==== Sys2Proof/Machine/Assembly.lean ====
section
/-!
DEFINITION. The spec's own way of writing streams (spec/30_encoding.md R97, R98): lines and the bytes they stand for.
-/

namespace Sys2Proof.Machine

/-- A line of R97 or a pseudo-line of R98; comments stand for no bytes. -/
inductive Line where
  /-- `REC <code>, <ts>, [<b>...]`, at most 255 bytes. -/
  | record (code : Byte) (ts : Half) (bytes : List Byte)
  /-- `REC.L <code>, <len>, <ts>, [<b>...]`. -/
  | recordL (code len : Byte) (ts : Half) (bytes : List Byte)
  /-- `RAW [<b>...]`. -/
  | raw (bytes : List Byte)
  /-- `END`. -/
  | sentinel
  /-- `END.X <len>, <ts>`. -/
  | sentinelX (len : Byte) (ts : Half)
  /-- `PAR <code>, <ts>, [<d>...]`, whose packed payload has at most 255 bytes. -/
  | parity (code : Byte) (ts : Half) (data : List Byte)
  /-- `TXT <code>, <ts>, "<chars>"`. -/
  | text (code : Byte) (ts : Half) (chars : Str)
  deriving DecidableEq, Repr

/-- The bytes of a record line (R97). -/
def recordBytes (code len : Byte) (ts : Half) (bytes : List Byte) : List Byte :=
  encodeHeader code len ts ++ bytes

/-- The bytes a line stands for, `PACK` under the configured parity sense (R97, R98). -/
def Line.bytes (parOdd : Bool) : Line → List Byte
  | .record code ts bytes => recordBytes code (BitVec.ofNat 8 bytes.length) ts bytes
  | .recordL code len ts bytes => recordBytes code len ts bytes
  | .raw bytes => bytes
  | .sentinel => recordBytes 0x00 0 0 []
  | .sentinelX len ts => recordBytes 0x00 len ts []
  | .parity code ts data =>
    recordBytes code (BitVec.ofNat 8 (pack parOdd data).length) ts (pack parOdd data)
  | .text code ts chars => recordBytes code (BitVec.ofNat 8 chars.length) ts chars

/-- A line whose byte count fits `dataLength` (R97, R98). -/
def Line.wellFormed (parOdd : Bool) : Line → Bool
  | .record _ _ bytes => bytes.length ≤ 255
  | .recordL _ _ _ _ => true
  | .raw _ => true
  | .sentinel => true
  | .sentinelX _ _ => true
  | .parity _ _ data => (pack parOdd data).length ≤ 255
  | .text _ _ chars => chars.length ≤ 255

/-- A stream is the concatenation of its lines' bytes in order (R97). -/
def assemble (parOdd : Bool) (lines : List Line) : List Byte := lines.flatMap (Line.bytes parOdd)

end Sys2Proof.Machine
end

