-- ==== Sys2Proof/Tests/Slice0.lean ====
section
/-!
SUPPORT. Tests of the model's writer. Expected values are the spec's own vectors (spec/95_test_vectors.md, named
beside each test) or written out by hand from the encoding tables. The witnesses show, for each statement with
hypotheses, a state and operands that meet them.
-/

namespace Sys2Proof.Tests
open Sys2Proof.Machine

-- One thread: many short kernel checks at once each ask for a stack of their own.
set_option Elab.async false

/-! ### The test configuration CFG_T of 95_test_vectors.md -/

/-- `REG_T`, with the codes 0x30 to 0x34 more, for the general rows of R95. -/
def regT : Registry :=
  ⟨[(0x00, descEmpty), (0x10, descGeneric), (0x20, descResetApp), (0x42, descCodecRxWParity),
    (0x30, ⟨[0x41], .empty⟩), (0x31, ⟨[0x42], .text⟩), (0x32, ⟨[0x43], .rawHex⟩), (0x33, ⟨[0x44], .parityHex⟩),
    (0x34, ⟨nameEmpty, .rawHex⟩)]⟩

def cfgT : Config := { parOdd := true, textPolicy := .fault, registry := regT, pvMaxLen := 255 }

def stateOf (bytes : List Byte) : State := resetWith cfgT (Memory.ofBytes bytes)

/-- A machine in `P_DEC` with a payload and PV started on it. -/
def pvState (payload : List Byte) : State :=
  { stateOf [] with phase := .dec, pay := payload, payN := payload.length, pv := pvStart payload pvReset }

def nextOf : Result → Option State
  | .next t => some t
  | .fault _ => none
  | .refused _ => none

/-! ### Names and registry -/

theorem test_names :
    nameEmpty.map BitVec.toNat = "EMPTY".toList.map Char.toNat ∧
    nameGeneric.map BitVec.toNat = "GENERIC".toList.map Char.toNat ∧
    nameUnknown.map BitVec.toNat = "UNKNOWN".toList.map Char.toNat ∧
    nameResetApp.map BitVec.toNat = "RESET APP".toList.map Char.toNat ∧
    nameCodecRxWParity.map BitVec.toNat = "CODEC RX W/PARITY".toList.map Char.toNat := by decide

theorem test_registry_default : regT.lookup 0x77 = descUnknown ∧ regT.legal = true := by decide
theorem test_registry_illegal : Registry.legal ⟨[(0x00, descEmpty)]⟩ = false := by decide

/-- The table of R37. -/
theorem test_configuration_fields :
    [0, 1, 2, (3 : BitVec 2)].map (fun k => TextPolicy.ofFields k 0x3F) =
      [some .fault, some (.replace 0x3F), some .passthrough, none] ∧
    [0, 1, 2, (3 : BitVec 2)].map DecoderKind.ofNumber = [.empty, .text, .rawHex, .parityHex] := by decide

/-! ### WellFormed: an ill-formed term for each check -/

theorem test_ill_empty : Instr.wellFormed regT (.empty 0x10 0 0) = false := by decide
theorem test_ill_generic : Instr.wellFormed ⟨[(0x00, descEmpty)]⟩ (.generic 0 0) = false := by decide
theorem test_ill_unknown : Instr.wellFormed regT (.unknown 0x32 0 0) = false := by decide
theorem test_ill_resetApp : Instr.wellFormed regT (.resetApp 0x30 0 0) = false := by decide
theorem test_ill_codec : Instr.wellFormed regT (.codecRxWParity 0x33 0 0) = false := by decide
theorem test_ill_recEmptyDec :
    Instr.wellFormed regT (.recEmptyDec 0x20 0 0) = false ∧ Instr.wellFormed regT (.recEmptyDec 0x00 0 0) = false ∧
    Instr.wellFormed regT (.recEmptyDec 0x31 0 0) = false := by decide
theorem test_ill_recText :
    Instr.wellFormed regT (.recText 0x10 0 0) = false ∧ Instr.wellFormed regT (.recText 0x30 0 0) = false := by decide
theorem test_ill_recRawHex :
    Instr.wellFormed regT (.recRawHex 0x99 0 0) = false ∧ Instr.wellFormed regT (.recRawHex 0x34 0 0) = false ∧
    Instr.wellFormed regT (.recRawHex 0x31 0 0) = false := by decide
theorem test_ill_recParHex :
    Instr.wellFormed regT (.recParHex 0x42 0 0) = false ∧ Instr.wellFormed regT (.recParHex 0x32 0 0) = false := by decide

/-! ### Decode: words written out from R81 and R82 -/

/-- H = 00 | 05 | ABCD. -/
theorem test_decode_empty : decode regT [0x00, 0x05, 0xAB, 0xCD] = .ok (.empty 0x00 5 0xABCD, []) := by decide
/-- A second code named "EMPTY" (U20). -/
theorem test_decode_empty_by_name : decode regT [0x34, 0, 0, 0] = .ok (.empty 0x34 0 0, []) := by decide
theorem test_decode_generic :
    decode regT [0x10, 0x02, 0x00, 0x0A, 0x4F] = .ok (.generic 2 10, [0x4F]) := by decide
theorem test_decode_unknown : decode regT [0x99, 0x02, 0xFF, 0xFA] = .ok (.unknown 0x99 2 65530, []) := by decide
theorem test_decode_unassigned : decode regT [0x77, 0xFF, 0x80, 0x01] = .ok (.unknown 0x77 255 0x8001, []) := by decide
theorem test_decode_resetApp : decode regT [0x20, 3, 0, 5] = .ok (.resetApp 0x20 3 5, []) := by decide
theorem test_decode_codec : decode regT [0x42, 3, 1, 0] = .ok (.codecRxWParity 0x42 3 256, []) := by decide
theorem test_decode_recEmptyDec : decode regT [0x30, 1, 2, 3] = .ok (.recEmptyDec 0x30 1 0x0203, []) := by decide
theorem test_decode_recText : decode regT [0x31, 1, 2, 3] = .ok (.recText 0x31 1 0x0203, []) := by decide
theorem test_decode_recRawHex : decode regT [0x32, 1, 2, 3] = .ok (.recRawHex 0x32 1 0x0203, []) := by decide
theorem test_decode_recParHex : decode regT [0x33, 1, 2, 3] = .ok (.recParHex 0x33 1 0x0203, []) := by decide
theorem test_decode_short : decode regT [0x00, 0x00, 0x00] = .error .shortHeader := by decide
/-- Groups 0 and 1 of `DE 5B 01` (the walk of L2.2). -/
theorem test_decode_groups :
    decodeGroup [0xDE, 0x5B, 0x01] 0 = .grp9 0xDE true ∧ decodeGroup [0xDE, 0x5B, 0x01] 1 = .grp9 0xAD false := by decide
/-- The closed form check of L2.3 on `A5 5A C3 3C`. -/
theorem test_decode_group_crossing :
    decodeGroup [0xA5, 0x5A, 0xC3, 0x3C] 1 = .grp9 0xAD true ∧
    decodeGroup [0xA5, 0x5A, 0xC3, 0x3C] 2 = .grp9 0x30 true := by decide
theorem test_encode :
    encode (.generic 2 10) = [0x10, 2, 0, 10] ∧ encode (.unknown 0x99 2 65530) = [0x99, 2, 0xFF, 0xFA] ∧
    encode (.grp9 0xDE true) = [0xDE, 1] := by decide
theorem test_reset_fetch_generic :
    (nextOf (step (State.reset.withFetchWord 32 0x10000000))).map (fun t => (t.phase, t.pos, t.ev, t.entries.length)) =
      some (.hdr, 4, 0x10, 1) := by decide +kernel
theorem test_reset_fetch_group :
    (nextOf (step (State.reset.withFetchWord 16 0x01DE))).map (fun t => (t.pv.i, t.pv.gdone, t.pv.unpacked)) =
      some (9, 1, [0xDE]) := by decide +kernel

/-! ### PV (L2.2, L2.3, R148) -/

theorem test_check_dead :
    checkResult true [0xDE, 0x5B, 0x01] = (true, [0xDE, 0xAD]) ∧
    checkResult false [0xDE, 0x5B, 0x01] = (false, [0xDE, 0x00]) := by decide +kernel
theorem test_check_zeros :
    checkResult true [0x00, 0x00] = (false, [0x00]) ∧ checkResult false [0x00, 0x00] = (true, [0x00]) ∧
    checkResult true [0x00, 0x01] = (true, [0x00]) := by decide +kernel
theorem test_check_short : checkResult true [] = (true, []) ∧ checkResult true [0xA5] = (true, [0xA5]) := by decide +kernel
theorem test_check_stops :
    checkResult true [0xDE, 0x5B, 0xFB, 0x7E, 0x07] = (false, [0xDE, 0xAD, 0x00, 0x00]) ∧
    (pvCheck true [0xDE, 0x5B, 0xFB, 0x7E, 0x07] pvReset).gdone = 1 := by decide +kernel
theorem test_check_crossing :
    checkResult false [0xA5, 0x5A, 0xC3, 0x3C] = (false, [0xA5, 0xAD, 0x30]) := by decide +kernel
theorem test_check_closed :
    closedResult true [0xDE, 0x5B, 0xFB, 0x7E, 0x07] = (false, [0xDE, 0xAD, 0x00, 0x00]) := by decide +kernel
/-- Ten bytes, the last all discarded (L2.3). -/
theorem test_check_tenth_byte :
    checkResult true (List.replicate 9 0xFF ++ [0x00]) = (true, List.replicate 8 0xFF) := by decide +kernel
/-- L2.2. -/
theorem test_pack :
    pack true [0xDE, 0xAD, 0xBE, 0xEF] = [0xDE, 0x5B, 0xF9, 0x7E, 0x07] ∧ pack true [0x4F, 0x4B] = [0x4F, 0x96, 0x02] ∧
    pack true [] = [] := by decide +kernel
/-- L1.4. -/
theorem test_flip :
    flipBit [0xDE, 0x5B, 0x01] 8 = [0xDE, 0x5A, 0x01] ∧ flipBit [0xDE, 0x5B, 0x01] 17 = [0xDE, 0x5B, 0x03] := by decide
theorem test_exec_grp9_fails :
    (nextOf (exec (.grp9 0xDE false) (pvState [0xDE, 0x5A, 0x01]))).map
      (fun t => ((t.pv.valid, t.pv.i, t.pv.one), t.pv.gdone, t.pv.unpacked)) =
      some ((false, 8, 6), 0, [0xDE, 0x00]) := by decide +kernel

/-! ### Decoders (L2.4) and the delta (L2.6) -/

theorem test_hex : hex [0x00, 0x0F, 0xF0, 0xFF, 0x0A, 0xB1] =
    "000ff0ff0ab1".toList.map (fun c => BitVec.ofNat 8 c.toNat) := by decide
theorem test_text :
    decText .fault [0x48, 0xC9] = .invalidText 1 0xC9 ∧ decText (.replace 0x3F) [0x48, 0xC9] = .str [0x48, 0x3F] ∧
    decText .passthrough [0x48, 0xC9] = .str [0x48, 0xC9] ∧ decText .fault [0x00, 0x7F] = .str [0x00, 0x7F] := by decide
/-- "de00!" and "a5". -/
theorem test_parhex :
    decParHex true [0xDE, 0x5A, 0x01] = .str [0x64, 0x65, 0x30, 0x30, 0x21] ∧
    decParHex true [0xA5] = .str [0x61, 0x35] := by decide +kernel
theorem test_delta :
    tsDelta 5 65530 = 11 ∧ tsDelta 150 100 = 50 ∧ tsDelta 0 1 = 65535 ∧ tsDelta 0 65535 = 1 ∧ tsDelta 7 7 = 0 := by decide

/-! ### Steps -/

/-- The record of R190's example: `{GENERIC, 2, 10, 10, "OK"}`. -/
theorem test_step_generic :
    (nextOf (step (stateOf [0x10, 0x02, 0x00, 0x0A, 0x4F, 0x4B]))).map (fun t => (t.entries, t.pos, t.lastTs)) =
      some ([⟨nameGeneric, 2, 10, 10, [0x4F, 0x4B]⟩], 6, 10) := by decide +kernel
/-- L2.5: a sentinel's length is ignored, its latches are written. -/
theorem test_step_empty :
    (nextOf (step (stateOf [0x00, 0xFF, 0xAB, 0xCD, 0x11, 0x22]))).map
      (fun t => ((t.phase, t.pos, t.ev), t.len, t.ts, t.entries)) = some ((.done, 4, 0), 0xFF, 0xABCD, []) := by decide +kernel
/-- L1.9: `{UNKNOWN, 2, 1, 1, "dead"}`. -/
theorem test_step_unknown :
    (nextOf (step (stateOf [0x99, 0x02, 0x00, 0x01, 0xDE, 0xAD]))).map (fun t => t.entries) =
      some [⟨nameUnknown, 2, 1, 1, [0x64, 0x65, 0x61, 0x64]⟩] := by decide +kernel
/-- P3, second record: a truncated payload, `{UNKNOWN, 4, 3, 3, "abcd"}` from `last_ts = 0`. -/
theorem test_step_truncated :
    (nextOf (step (stateOf [0x99, 0x04, 0x00, 0x03, 0xAB, 0xCD]))).map (fun t => (t.entries, t.pos, t.payN)) =
      some ([⟨nameUnknown, 4, 3, 3, [0x61, 0x62, 0x63, 0x64]⟩], 6, 2) := by decide +kernel
/-- P2, fourth record: read and ignored. -/
theorem test_step_resetApp :
    (nextOf (step (stateOf [0x20, 0x03, 0x00, 0x05, 1, 2, 3]))).map (fun t => (t.entries, t.pos)) =
      some ([⟨nameResetApp, 3, 5, 5, []⟩], 7) := by decide +kernel
/-- P2, first record: `{CODEC RX W/PARITY, 3, 256, 256, "dead"}`. -/
theorem test_step_codec :
    (nextOf (step (stateOf [0x42, 0x03, 0x01, 0x00, 0xDE, 0x5B, 0x01]))).map
      (fun t => (t.entries, t.pv.valid, t.pv.gdone)) =
      some ([⟨nameCodecRxWParity, 3, 256, 256, [0x64, 0x65, 0x61, 0x64]⟩], true, 2) := by decide +kernel
/-- P4, second record: the text fault. -/
theorem test_step_text_fault :
    (nextOf (step (stateOf [0x10, 0x02, 0x00, 0x09, 0x48, 0xC9]))).map
      (fun t => ((t.phase, t.fault, t.faultCode), t.pos, t.lastTs, t.entries)) =
      some ((.faulted, true, 2), 6, 0, []) := by decide +kernel
theorem test_step_recEmptyDec :
    (nextOf (step (stateOf [0x30, 1, 0, 1, 0xFF]))).map (fun t => t.entries) = some [⟨[0x41], 1, 1, 1, []⟩] := by decide +kernel
theorem test_step_recText :
    (nextOf (step (stateOf [0x31, 1, 0, 1, 0x7F]))).map (fun t => t.entries) = some [⟨[0x42], 1, 1, 1, [0x7F]⟩] := by decide +kernel
theorem test_step_recRawHex :
    (nextOf (step (stateOf [0x32, 1, 0, 1, 0xB1]))).map (fun t => t.entries) =
      some [⟨[0x43], 1, 1, 1, [0x62, 0x31]⟩] := by decide +kernel
/-- A failing group: "00!" (L2.4). -/
theorem test_step_recParHex :
    (nextOf (step (stateOf [0x33, 2, 0, 1, 0, 0]))).map (fun t => t.entries) =
      some [⟨[0x44], 2, 1, 1, [0x30, 0x30, 0x21]⟩] := by decide +kernel
/-- L2.5: a short header writes no latch. -/
theorem test_step_short :
    (nextOf (step (stateOf [0x42, 0x05, 0x00]))).map (fun t => (t.phase, t.pos, t.ev, t.len)) =
      some (.done, 3, 0, 0) := by decide +kernel
/-- L2.5's kinds of reading, byte by byte: a record, a sentinel, a short header, a truncated payload. -/
theorem test_serial :
    ([[0x10, 2, 0, 10, 0x4F, 0x4B], [0x00, 0xFF, 0xAB, 0xCD, 1], [0x42, 5, 0], [0x99, 4, 0, 3, 0xAB, 0xCD]].map
      (fun b => decide ((SerialReader.run 20 (SerialReader.start (stateOf b))).mach = (rrNext (stateOf b)).state))) =
    [true, true, true, true] := by decide +kernel
/-- The bytes of P1 and of P5's tail (R97, R98). -/
theorem test_assemble :
    assemble true [.text 0x10 10 [0x4F, 0x4B], .sentinel] = [0x10, 2, 0, 10, 0x4F, 0x4B, 0, 0, 0, 0] ∧
    assemble true [.parity 0x42 0x0100 [0xDE, 0xAD], .sentinelX 7 0x1234, .raw [0x10, 2]] =
      [0x42, 3, 1, 0, 0xDE, 0x5B, 1, 0, 7, 0x12, 0x34, 0x10, 2] := by decide +kernel

/-! ### Witnesses: for each statement with hypotheses, operands and a state that meet all of them together -/

theorem next_of_some {r : Result} (h : (nextOf r).isSome = true) : ∃ t, r = .next t := by
  cases r with
  | next t => exact ⟨t, rfl⟩
  | fault _ => cases h
  | refused _ => cases h

/-- `P_DEC`, for a payload of a record with this code. -/
def decState (c : Byte) (payload : List Byte) : State :=
  { stateOf [] with phase := .dec, ev := c, len := BitVec.ofNat 8 payload.length,
                    pay := overlay payload (List.replicate 255 0), payN := payload.length }

/-- A header state of a stream, under a policy. -/
def policyState (policy : TextPolicy) (bytes : List Byte) : State :=
  resetWith { cfgT with textPolicy := policy } (Memory.ofBytes bytes)

theorem witness_RecordHeadersRoundTrip :
    Instr.wellFormed regT (.codecRxWParity 0x42 255 0xFFFF) = true ∧ Instr.wellFormed regT (.empty 0x34 0 0) = true ∧
    (∀ d p, Instr.codecRxWParity 0x42 255 0xFFFF ≠ .grp9 d p) ∧ (∀ d p, Instr.empty 0x34 0 0 ≠ .grp9 d p) :=
  ⟨by decide, by decide, by simp, by simp⟩

theorem witness_EveryHeaderIsARecord : regT.legal = true := by decide

/-- The first and the last group of a payload of 255 bytes. -/
theorem witness_GroupsByShifts :
    0 < groupCount (List.replicate 255 (0 : Byte)).length ∧ 225 < groupCount (List.replicate 255 (0 : Byte)).length := by
  decide +kernel

/-- First clause: `DE 5B 01` under odd parity; second: `DE 5B FB 7E 07` at `f = 1`, and `00 00` at `f = 0`. -/
theorem witness_PvCheckByLeastBadGroup :
    (∀ g, g < groupCount [0xDE, 0x5B, 0x01].length → groupOk true [0xDE, 0x5B, 0x01] g = true) ∧
    (1 < groupCount [0xDE, 0x5B, 0xFB, 0x7E, 0x07].length ∧ groupOk true [0xDE, 0x5B, 0xFB, 0x7E, 0x07] 1 = false ∧
      ∀ g, g < 1 → groupOk true [0xDE, 0x5B, 0xFB, 0x7E, 0x07] g = true) ∧
    (0 < groupCount [0, 0].length ∧ groupOk true [0, 0] 0 = false) := by decide +kernel

/-- The last group, the last data bit, and the pairs at both ends. -/
theorem witness_SingleFlipCaught : 1 < [0xDE, (0xAD : Byte)].length ∧ (7 : Nat) < 8 ∧ (0 : Nat) < 8 ∧ (8 : Nat) ≤ 8 := by
  decide

theorem witness_ParitySensesExclude :
    1 ≤ groupCount [0xDE, 0x5B, 0x01].length ∧ (pvCheck true [0xDE, 0x5B, 0x01] pvReset).valid = true := by
  decide +kernel

/-- Bit 18 of three bytes is the first of the discarded ones. -/
theorem witness_TrailingBitsIgnored :
    [0xDE, 0x5B, (0x01 : Byte)].length ≠ 1 ∧ [0xDE, 0x5B, (0xFD : Byte)].length = [0xDE, 0x5B, (0x01 : Byte)].length ∧
    ∀ i, i < bitCount [0xDE, 0x5B, (0x01 : Byte)].length →
      bitAt [0xDE, 0x5B, 0xFD] i = bitAt [0xDE, 0x5B, 0x01] i := by decide +kernel

/-- Lengths 0 and 1; a valid payload; and one whose group 0 fails, of which bit 9 and those above differ. -/
theorem witness_PvResultFacts :
    (([] : List Byte).length ≤ 1 ∧ [(0 : Byte)].length ≤ 1) ∧
    ([0xDE, 0x5B, (0x01 : Byte)].length ≠ 1 ∧ (pvCheck true [0xDE, 0x5B, 0x01] pvReset).valid = true ∧
      1 < groupCount [0xDE, 0x5B, (0x01 : Byte)].length) ∧
    ([0xDE, 0x5B, (0xFD : Byte)].length = [0xDE, 0x5B, (0x01 : Byte)].length ∧
      ∀ i, i < bitCount [0xDE, 0x5B, (0x01 : Byte)].length →
        bitAt [0xDE, 0x5B, 0xFD] i = bitAt [0xDE, 0x5B, 0x01] i) ∧
    ([0xDE, 0x5A, (0x01 : Byte)].length ≠ 1 ∧ [0xDE, 0xA4, (0xFF : Byte)].length = [0xDE, 0x5A, (0x01 : Byte)].length ∧
      (pvCheck true [0xDE, 0x5A, 0x01] pvReset).valid = false ∧
      ∀ i, i ≤ 9 * (pvCheck true [0xDE, 0x5A, 0x01] pvReset).gdone + 8 →
        bitAt [0xDE, 0xA4, 0xFF] i = bitAt [0xDE, 0x5A, 0x01] i) := by decide +kernel

theorem witness_GroupPasses :
    ((pvState [0xDE, 0x5B, 0x01]).phase = .dec ∧ (pvState [0xDE, 0x5B, 0x01]).pv.run = .running ∧
      (pvState [0xDE, 0x5B, 0x01]).pv.i < 9 * (pvState [0xDE, 0x5B, 0x01]).pv.nout) ∧
    (pvState [0xDE, 0x5B, 0x01]).pv.i % 9 = 0 ∧ (pvState [0xDE, 0x5B, 0x01]).pv.one = 0 ∧
    (popcount8 0xDE + true.toNat) % 2 = (pvState [0xDE, 0x5B, 0x01]).cfg.parOdd.toNat := by decide +kernel

theorem witness_GroupFails :
    ((pvState [0xDE, 0x5A, 0x01]).phase = .dec ∧ (pvState [0xDE, 0x5A, 0x01]).pv.run = .running ∧
      (pvState [0xDE, 0x5A, 0x01]).pv.i < 9 * (pvState [0xDE, 0x5A, 0x01]).pv.nout) ∧
    (pvState [0xDE, 0x5A, 0x01]).pv.i % 9 = 0 ∧ (pvState [0xDE, 0x5A, 0x01]).pv.one = 0 ∧
    (popcount8 0xDE + false.toNat) % 2 ≠ (pvState [0xDE, 0x5A, 0x01]).cfg.parOdd.toNat := by decide +kernel

/-- In the middle of the last group. -/
theorem witness_GroupFrame :
    let s := { pvState [0xDE, 0x5B, 0x01] with pv := { pvStart [0xDE, 0x5B, 0x01] pvReset with i := 17, one := 8 } }
    s.phase = .dec ∧ s.pv.run = .running ∧ s.pv.i < 9 * s.pv.nout := by decide +kernel

theorem witness_GroupStepsReachPvCheck :
    (pvState [0xDE, 0x5B, 0x01]).cfg.legal = true ∧ (pvState [0xDE, 0x5B, 0x01]).phase = .dec ∧
    (pvState [0xDE, 0x5B, 0x01]).pv = pvStart (pvState [0xDE, 0x5B, 0x01]).payload pvReset := by decide +kernel

theorem witness_HexDigits : 1 < [0x00, (0xFF : Byte)].length := by decide

/-- 7-bit bytes at the boundary; the least byte above it, at the second place. -/
theorem witness_TextPolicies :
    (∀ b ∈ [0x00, (0x7F : Byte)], b.toNat ≤ 0x7F) ∧
    (1 < [0x7F, (0x80 : Byte)].length ∧ 0x7F < ([0x7F, (0x80 : Byte)])[1].toNat ∧
      ∀ b ∈ [0x7F, (0x80 : Byte)].take 1, b.toNat ≤ 0x7F) := by decide

/-- Each kind answers a string; RawHex at the longest payload, with 510 characters. -/
theorem witness_DecodedSizes :
    decodeString cfgT .empty [0xFF] = .str [] ∧ decodeString cfgT .text [0x7F] = .str [0x7F] ∧
    (decodeString cfgT .rawHex (List.replicate 255 0xFF) = .str (List.replicate 510 0x66) ∧
      (List.replicate 255 (0xFF : Byte)).length ≤ 255) ∧
    (decodeString cfgT .parityHex [0xA5] = .str [0x61, 0x35] ∧
      decodeString cfgT .parityHex [0, 0] = .str [0x30, 0x30, 0x21]) := by decide +kernel

theorem witness_SentinelEnds : (stateOf [0x00, 0xFF, 0xAB, 0xCD]).phase = .hdr := by decide

/-- The four bytes are the whole stream. -/
theorem witness_StepAtSentinel :
    let s := stateOf [0x34, 0xFF, 0xAB, 0xCD]
    (s.cfg.legal = true ∧ s.phase = .hdr ∧ s.pos + 4 ≤ s.stream.size) ∧
    (s.cfg.registry.lookup (s.stream.byteAt s.pos)).name = nameEmpty := by decide +kernel

/-- A payload of 7-bit bytes; `passthrough` on a byte above 0x7F; `replace`. -/
theorem witness_TextRecordsAppend :
    ((stateOf [0x10, 2, 0, 10, 0x4F, 0x7F]).phase = .hdr ∧
      ∀ b ∈ (stateOf [0x10, 2, 0, 10, 0x4F, 0x7F]).nextPayload 2, b.toNat ≤ 0x7F) ∧
    ((policyState .passthrough [0x10, 1, 0, 0, 0x80]).phase = .hdr ∧
      (policyState .passthrough [0x10, 1, 0, 0, 0x80]).cfg.textPolicy = .passthrough) ∧
    ((policyState (.replace 0x3F) [0x10, 1, 0, 0, 0x80]).phase = .hdr ∧
      (policyState (.replace 0x3F) [0x10, 1, 0, 0, 0x80]).cfg.textPolicy = .replace 0x3F) := by decide +kernel

theorem witness_TextFaultTaken :
    ((stateOf [0x10, 1, 0, 0, 0x80]).phase = .hdr ∧ (stateOf [0x10, 1, 0, 0, 0x80]).cfg.textPolicy = .fault ∧
      ∃ b ∈ (stateOf [0x10, 1, 0, 0, 0x80]).nextPayload 1, 0x7F < b.toNat) ∧
    ((policyState .passthrough [0x10, 1, 0, 0, 0x80]).phase = .hdr ∧
      (policyState .passthrough [0x10, 1, 0, 0, 0x80]).cfg.textPolicy ≠ .fault) := by decide +kernel

theorem witness_RawHexRecordsAppend : (stateOf [0x99, 2, 0, 1, 0xDE, 0xAD]).phase = .hdr := by decide
theorem witness_EmptyRecordsAppend : (stateOf [0x20, 3, 0, 5, 1, 2, 3]).phase = .hdr := by decide

/-- A valid payload and one with a violation. -/
theorem witness_ParityRecordsAppend :
    ((stateOf [0x42, 3, 1, 0, 0xDE, 0x5B, 0x01]).phase = .hdr ∧
      checkResult (stateOf [0x42, 3, 1, 0, 0xDE, 0x5B, 0x01]).cfg.parOdd
        ((stateOf [0x42, 3, 1, 0, 0xDE, 0x5B, 0x01]).nextPayload 3) = (true, [0xDE, 0xAD])) ∧
    ((stateOf [0x42, 3, 1, 0, 0xDE, 0x5A, 0x01]).phase = .hdr ∧
      checkResult (stateOf [0x42, 3, 1, 0, 0xDE, 0x5A, 0x01]).cfg.parOdd
        ((stateOf [0x42, 3, 1, 0, 0xDE, 0x5A, 0x01]).nextPayload 3) = (false, [0xDE, 0x00])) := by decide +kernel

/-- A record and a group, each completing. -/
theorem witness_InstructionFrame :
    (∃ t, exec (.codecRxWParity 0x42 3 256) (stateOf [0x42, 3, 1, 0, 0xDE, 0x5B, 0x01]) = .next t) ∧
    (∃ t, exec (.empty 0x00 0 0) (stateOf [0, 0, 0, 0]) = .next t) ∧
    (∃ t, exec (.grp9 0xDE true) (pvState [0xDE, 0x5B, 0x01]) = .next t) :=
  ⟨next_of_some (by decide +kernel), next_of_some (by decide +kernel), next_of_some (by decide +kernel)⟩

theorem witness_NothingRunsInTerminalPhases :
    { stateOf [] with phase := .done }.phase = .done ∧
    { stateOf [] with phase := .faulted, fault := true, faultCode := 2 }.phase = .faulted := by decide

theorem witness_UnknownCodesAlike :
    (regT.lookup 0x77 = descUnknown ∧ regT.lookup 0xFF = descUnknown) ∧
    (stateOf [0x77, 0, 0, 0]).cfg.registry = regT ∧
    (∃ t, exec (.unknown 0x77 0 0) (stateOf [0x77, 0, 0, 0]) = .next t) ∧
    (∃ t, exec (.unknown 0xFF 0 0) (stateOf [0x77, 0, 0, 0]) = .next t) :=
  ⟨by decide, rfl, next_of_some (by decide +kernel), next_of_some (by decide +kernel)⟩

/-- One record with timestamp 65530: the head is its entry. -/
theorem witness_FirstEntryDelta :
    ((ldRun 1 (launch cfgT [0x99, 0, 0xFF, 0xFA] (stateOf []))).entries.head?).map LogEntry.timestamp = some 65530 := by
  decide +kernel

theorem witness_StepKeepsDeltaSum :
    deltaSum (stateOf [0x99, 0, 0xFF, 0xFA]).entries = (stateOf [0x99, 0, 0xFF, 0xFA]).lastTs ∧
    ∃ t, step (stateOf [0x99, 0, 0xFF, 0xFA]) = .next t := ⟨by decide, next_of_some (by decide +kernel)⟩

theorem witness_StepRunsRecord :
    (stateOf [0x10, 2, 0, 10, 0x4F, 0x4B]).cfg.legal = true ∧ (stateOf [0x10, 2, 0, 10, 0x4F, 0x4B]).phase = .hdr ∧
    decode (stateOf [0x10, 2, 0, 10, 0x4F, 0x4B]).cfg.registry ((stateOf [0x10, 2, 0, 10, 0x4F, 0x4B]).stream.read
      (stateOf [0x10, 2, 0, 10, 0x4F, 0x4B]).pos 4) = .ok (.generic 2 10, []) := by decide +kernel

theorem witness_StepRunsGroup :
    let s := pvState [0xDE, 0x5B, 0x01]
    (s.cfg.legal = true ∧ s.phase = .dec) ∧ s.pv.run = .running ∧ s.pv.i < 9 * s.pv.nout := by decide +kernel

theorem witness_StepIsLdStep : (stateOf [0]).cfg.legal = true ∧ (stateOf [0]).phase = .hdr := by decide +kernel

theorem witness_MicroStepsReachRecordStep :
    let s := stateOf [0x42, 3, 1, 0, 0xDE, 0x5B, 0x01]
    s.cfg.legal = true ∧ s.phase = .hdr ∧ s.pv.run = .idle := by decide +kernel

theorem witness_SerialReaderReachesRrNext :
    (stateOf [0x10, 2, 0, 10, 0x4F, 0x4B]).phase = .hdr ∧
    (stateOf [0x10, 2, 0, 10, 0x4F, 0x4B]).pay.length = 255 := by decide +kernel

/-- Three bytes left, and none. -/
theorem witness_ShortHeaderEnds :
    ((stateOf [0x42, 5, 0]).cfg.legal = true ∧ (stateOf [0x42, 5, 0]).phase = .hdr ∧
      (stateOf [0x42, 5, 0]).stream.size - (stateOf [0x42, 5, 0]).pos < 4) ∧
    (stateOf []).stream.size - (stateOf []).pos < 4 := by decide +kernel

/-- Exactly four bytes left, of a record and of a sentinel. -/
theorem witness_HeaderLatched :
    ((stateOf [0x10, 2, 0xAB, 0xCD]).cfg.legal = true ∧ (stateOf [0x10, 2, 0xAB, 0xCD]).phase = .hdr ∧
      (stateOf [0x10, 2, 0xAB, 0xCD]).pos + 4 ≤ (stateOf [0x10, 2, 0xAB, 0xCD]).stream.size) ∧
    (stateOf [0x00, 2, 0xAB, 0xCD]).pos + 4 ≤ (stateOf [0x00, 2, 0xAB, 0xCD]).stream.size := by decide +kernel

/-- Two bytes left of the 255 asked for, the second of them at `j = 1`. -/
theorem witness_PayloadRead :
    let s := { stateOf [0x10, 255, 0, 0, 0x4F, 0x4B] with phase := .pay, pos := 4, len := 255 }
    (s.cfg.legal = true ∧ s.phase = .pay ∧ s.pos ≤ s.stream.size) ∧ 1 < min s.len.toNat (s.stream.size - s.pos) := by
  decide +kernel

/-- A string, and the text fault. -/
theorem witness_DecodeStep :
    (((decState 0x10 [0x7F]).cfg.legal = true ∧ (decState 0x10 [0x7F]).phase = .dec ∧
        (decState 0x10 [0x7F]).pv.run = .idle) ∧
      ((decState 0x10 [0x7F]).cfg.registry.lookup (decState 0x10 [0x7F]).ev).kind ≠ .parityHex ∧
      decodeString (decState 0x10 [0x7F]).cfg ((decState 0x10 [0x7F]).cfg.registry.lookup (decState 0x10 [0x7F]).ev).kind
        (decState 0x10 [0x7F]).payload = .str [0x7F]) ∧
    ((((decState 0x10 [0x80]).cfg.legal = true ∧ (decState 0x10 [0x80]).phase = .dec ∧
        (decState 0x10 [0x80]).pv.run = .idle)) ∧
      decodeString (decState 0x10 [0x80]).cfg ((decState 0x10 [0x80]).cfg.registry.lookup (decState 0x10 [0x80]).ev).kind
        (decState 0x10 [0x80]).payload = .invalidText 0 0x80) := by decide +kernel

/-- PV idle before a payload; PV past its last bit; PV returned. -/
theorem witness_ParitySteps :
    (((decState 0x42 [0xDE, 0x5B, 0x01]).cfg.legal = true ∧ (decState 0x42 [0xDE, 0x5B, 0x01]).phase = .dec) ∧
      (decState 0x42 [0xDE, 0x5B, 0x01]).pv.run = .idle ∧
      ((decState 0x42 [0xDE, 0x5B, 0x01]).cfg.registry.lookup (decState 0x42 [0xDE, 0x5B, 0x01]).ev).kind = .parityHex ∧
      (decState 0x42 [0xDE, 0x5B, 0x01]).payload.length ≠ 1) ∧
    ((pvState []).cfg.legal = true ∧ (pvState []).phase = .dec ∧ (pvState []).pv.run = .running ∧
      (pvState []).pv.i = 9 * (pvState []).pv.nout) ∧
    ((pvState [0xA5]).cfg.legal = true ∧ (pvState [0xA5]).phase = .dec ∧ (pvState [0xA5]).pv.run = .returned) := by
  decide +kernel

theorem witness_EmitStep :
    { stateOf [] with phase := .emit }.cfg.legal = true ∧ { stateOf [] with phase := .emit }.phase = .emit := by
  decide +kernel

theorem witness_TerminalPhasesStop :
    { stateOf [] with phase := .done }.cfg.legal = true ∧ { stateOf [] with phase := .done }.phase = .done ∧
    { stateOf [] with phase := .faulted }.phase = .faulted := by decide +kernel

theorem witness_IllegalConfigurationRefused :
    { stateOf [] with cfg := { cfgT with registry := ⟨[]⟩ } }.cfg.legal = false := by decide +kernel

theorem stateOf_inv (bytes : List Byte) : (stateOf bytes).Inv := by
  constructor <;> simp [stateOf, resetWith, Phase.inRecord, Phase.hasPayload]

theorem stateOf_inRange (bytes : List Byte) : (stateOf bytes).InRange :=
  ⟨ofBytes_wf bytes, by simp [stateOf, resetWith], by simp [stateOf, resetWith], pvReset_inRange, Or.inl rfl,
    by simp [stateOf, resetWith], by simp [stateOf, resetWith], by simp [stateOf, resetWith]⟩

theorem witness_StepKeepsInv :
    (stateOf [0x10, 1, 0, 0, 0x80]).Inv ∧ ∃ t, step (stateOf [0x10, 1, 0, 0, 0x80]) = .next t :=
  ⟨stateOf_inv _, next_of_some (by decide +kernel)⟩

theorem witness_StepKeepsRanges :
    (stateOf [0x42, 3, 1, 0, 0xDE, 0x5A, 0x01]).InRange ∧
    ∃ t, step (stateOf [0x42, 3, 1, 0, 0xDE, 0x5A, 0x01]) = .next t :=
  ⟨stateOf_inRange _, next_of_some (by decide +kernel)⟩

theorem witness_StepReadsForward :
    (stateOf [0x10, 1, 0, 0, 0x80]).pos ≤ (stateOf [0x10, 1, 0, 0, 0x80]).stream.size ∧
    ∃ t, step (stateOf [0x10, 1, 0, 0, 0x80]) = .next t := ⟨by decide, next_of_some (by decide +kernel)⟩

/-- A step into `P_HDR`, and one into each terminal phase. -/
theorem witness_EntriesOnlyGrow :
    (∃ t, step (stateOf [0x99, 0, 0, 0]) = .next t) ∧
    (nextOf (step (stateOf [0x99, 0, 0, 0]))).map State.phase = some .hdr ∧
    (nextOf (step (stateOf [0x00, 0, 0, 0]))).map State.phase = some .done ∧
    (nextOf (step (stateOf [0x10, 1, 0, 0, 0x80]))).map State.phase = some .faulted :=
  ⟨next_of_some (by decide +kernel), by decide +kernel, by decide +kernel, by decide +kernel⟩

/-- A fault set by the step, and one already set (in a state that no run reaches). -/
theorem witness_FaultIsSticky :
    (nextOf (step (stateOf [0x10, 1, 0, 0, 0x80]))).map State.fault = some true ∧
    ({ stateOf [] with fault := true, faultCode := 2 }.fault = true ∧
      (nextOf (step { stateOf [] with fault := true, faultCode := 2 })).map State.fault = some true) := by decide +kernel

/-- A record that does not end the run, at a `pos` in the stream. -/
theorem witness_RunEnds :
    (stateOf [0x99, 0, 0, 0, 0x77, 0, 0, 0]).phase = .hdr ∧
    (ldStep (stateOf [0x99, 0, 0, 0, 0x77, 0, 0, 0])).phase.terminal = false ∧
    (stateOf [0x99, 0, 0, 0, 0x77, 0, 0, 0]).pos ≤ (stateOf [0x99, 0, 0, 0, 0x77, 0, 0, 0]).stream.size := by
  decide +kernel

theorem witness_RunEndsWellWithoutFaultPolicy :
    (policyState .passthrough [0x10, 1, 0, 0, 0x80]).phase = .hdr ∧
    (policyState .passthrough [0x10, 1, 0, 0, 0x80]).cfg.textPolicy ≠ .fault := by decide +kernel

/-- Three bytes; and a sentinel before more bytes. -/
theorem witness_EmptyDecodes :
    cfgT.legal = true ∧ [0x10, 0, (0 : Byte)].length < 4 ∧
    [(0x00 : Byte), 0xFF, 0xAB, 0xCD, 0x10, 0, 0, 0].head? = some 0x00 := by decide +kernel

/-- One byte short. -/
theorem witness_TruncatedRecordLooksWhole :
    let s := stateOf [0x99, 2, 0, 3, 0xAB]
    (s.cfg.legal = true ∧ s.phase = .hdr ∧ s.pos + 4 ≤ s.stream.size) ∧
    s.stream.size < s.pos + 4 + (s.stream.byteAt (s.pos + 1)).toNat ∧
    (nextOf (step s)).map State.phase = some .hdr := by decide +kernel

/-- The illegal kind value, and the boundary below it. -/
theorem witness_ConfigurationFields : (3 : BitVec 2) = 3 ∧ (2 : BitVec 2) ≠ 3 ∧ (1 : BitVec 2) = 1 := by decide

/-- Both sides of the bound. -/
theorem witness_PvAloneBounded :
    (List.replicate 255 (0 : Byte)).length ≤ cfgT.pvMaxLen ∧ cfgT.pvMaxLen < (List.replicate 256 (0 : Byte)).length := by
  decide +kernel

end Sys2Proof.Tests
end

/-! ## The state's invariants: what a step does to the registers, clause by clause (spec/10_state.md) -/

namespace Sys2Proof.Machine

/-! ### What a step does, case by case -/

/-- The next states a step can give, each by the operation that gives it: in `P_HDR` the end of the stream or a whole
record (R171, R173, R190), elsewhere the smallest step of the phase (R174, R191, R147, R192). The registers a step of PV
leaves (`parity`) are given by what every such step keeps, the ranges of R22. -/
inductive StepEffect (s : State) : State → Prop where
  | short (hp : s.phase = .hdr) : StepEffect s (endShort s)
  | sentinel (hp : s.phase = .hdr) (c len : Byte) (ts : Half) : StepEffect s (latchHeader c len ts .done s)
  | record (hp : s.phase = .hdr) (c len : Byte) (ts : Half)
      (hc : (s.cfg.registry.lookup c).isSentinel = false) :
      StepEffect s (recordBody (s.cfg.registry.lookup c).kind c len ts s)
  | payload (hp : s.phase = .pay) : StepEffect s (readPayload s)
  | decode (hp : s.phase = .dec) (hr : s.pv.run = .idle) :
      StepEffect s (decodeAs (s.cfg.registry.lookup s.ev).kind s)
  | parity (hp : s.phase = .dec) (pv : Pv) (hpv : s.InRange → pv.InRange) : StepEffect s { s with pv := pv }
  | render (hp : s.phase = .dec) : StepEffect s (renderParity s)
  | emit (hp : s.phase = .emit) : StepEffect s (emitEntry s)

theorem payload_length_le {s : State} (h : s.InRange) : s.payload.length ≤ 255 := by
  have := h.payN
  simp only [State.payload, List.length_take]
  omega

theorem stepRecord_effect {s t : State} (hp : s.phase = .hdr) (h : stepRecord s = .next t) : StepEffect s t := by
  rcases stepRecord_cases hp with ⟨-, e⟩ | ⟨-, -, e⟩ | ⟨-, hc, e⟩ <;> rw [e] at h <;> cases h
  · exact .short hp
  · exact .sentinel hp _ _ _
  · exact .record hp _ _ _ hc

theorem stepDecode_effect {s t : State} (hp : s.phase = .dec) (h : stepDecode s = .next t) : StepEffect s t := by
  rcases stepDecode_cases hp with ⟨hr, e⟩ | ⟨-, hi, e⟩ | ⟨-, -, e⟩ | ⟨-, e⟩ <;> rw [e] at h <;> cases h
  · rcases decodePhase_cases s with ⟨-, e⟩ | ⟨-, e⟩ <;> rw [e]
    · exact .parity hp _ fun hs => pvStart_inRange hs.pv (payload_length_le hs)
    · exact .decode hp hr
  · exact .parity hp _ fun hs => pvGroup_inRange hs.pv hi
  · exact .parity hp _ fun hs => pvFinish_inRange hs.pv
  · exact .render hp

theorem step_effect {s t : State} (h : step s = .next t) : StepEffect s t := by
  obtain ⟨-, ⟨hp, e⟩ | ⟨hp, rfl⟩ | ⟨hp, e⟩ | ⟨hp, rfl⟩⟩ := step_cases h
  · exact stepRecord_effect hp e
  · exact .payload hp
  · exact stepDecode_effect hp e
  · exact .emit hp

/-! ### The frame of the decode phase and of a record -/

/-- The decode phase stores some string, with PV's registers changed at most, or records the text fault (R191). -/
theorem decodeAs_forms (kind : DecoderKind) (s : State) :
    (∃ str pv, decodeAs kind s = storeString str { s with pv := pv }) ∨
    (kind = .text ∧ s.cfg.textPolicy = .fault ∧ decodeAs kind s = raise .invalidTextEncoding s) := by
  rcases decodeAs_cases kind s with ⟨-, str, -, e⟩ | ⟨-, e⟩ | ⟨rfl, ⟨j, b, h⟩, e⟩
  · exact Or.inl ⟨str, s.pv, e⟩
  · exact Or.inl ⟨_, _, e⟩
  · exact Or.inr ⟨rfl, policy_of_invalidText h, e⟩

@[simp] theorem decodeAs_stream (kind : DecoderKind) (s : State) : (decodeAs kind s).stream = s.stream := by
  rcases decodeAs_forms kind s with ⟨str, pv, e⟩ | ⟨-, -, e⟩ <;> simp [e]
@[simp] theorem decodeAs_cfg (kind : DecoderKind) (s : State) : (decodeAs kind s).cfg = s.cfg := by
  rcases decodeAs_forms kind s with ⟨str, pv, e⟩ | ⟨-, -, e⟩ <;> simp [e]
@[simp] theorem decodeAs_pos (kind : DecoderKind) (s : State) : (decodeAs kind s).pos = s.pos := by
  rcases decodeAs_forms kind s with ⟨str, pv, e⟩ | ⟨-, -, e⟩ <;> simp [e]

@[simp] theorem emitIfDecoded_stream (s : State) : (emitIfDecoded s).stream = s.stream := by
  by_cases h : s.phase = .emit <;> simp [emitIfDecoded, h]
@[simp] theorem emitIfDecoded_cfg (s : State) : (emitIfDecoded s).cfg = s.cfg := by
  by_cases h : s.phase = .emit <;> simp [emitIfDecoded, h]
@[simp] theorem emitIfDecoded_pos (s : State) : (emitIfDecoded s).pos = s.pos := by
  by_cases h : s.phase = .emit <;> simp [emitIfDecoded, h]

@[simp] theorem recordBody_stream (kind : DecoderKind) (c len : Byte) (ts : Half) (s : State) :
    (recordBody kind c len ts s).stream = s.stream := by simp [recordBody]
@[simp] theorem recordBody_cfg (kind : DecoderKind) (c len : Byte) (ts : Half) (s : State) :
    (recordBody kind c len ts s).cfg = s.cfg := by simp [recordBody]
@[simp] theorem recordBody_pos (kind : DecoderKind) (c len : Byte) (ts : Half) (s : State) :
    (recordBody kind c len ts s).pos = s.stream.after (s.stream.after s.pos 4) len.toNat := by simp [recordBody]

theorem after_bounds {m : Memory} {pos : Nat} (h : pos ≤ m.size) (n : Nat) :
    pos ≤ m.after pos n ∧ m.after pos n ≤ m.size := by
  simp only [Memory.after]
  omega

/-! ### R43, operation by operation -/

theorem State.Inv.fault_eq_false {s : State} (h : s.Inv) (hp : s.phase ≠ .faulted) : s.fault = false :=
  Bool.eq_false_iff.mpr fun hf => hp (h.faultIff.mp hf)

theorem endShort_inv {s : State} (h : s.Inv) (hp : s.phase = .hdr) : (endShort s).Inv where
  posInStream := by simp
  notSentinel := by simp [Phase.inRecord]
  payloadShort := by simp [Phase.hasPayload]
  payloadRead := by simp [Phase.hasPayload]
  faultIff := by simp [h.fault_eq_false (by simp [hp])]
  lastTs := h.lastTs

theorem latchHeader_inv {c len : Byte} {ts : Half} {ph : Phase} {s : State} (h : s.Inv) (hp : s.phase = .hdr)
    (hph : ph = .done ∨ (ph = .pay ∧ (s.cfg.registry.lookup c).isSentinel = false)) :
    (latchHeader c len ts ph s).Inv where
  posInStream := (after_bounds h.posInStream 4).2
  notSentinel := by rcases hph with rfl | ⟨rfl, hc⟩ <;> simp_all [Phase.inRecord]
  payloadShort := by rcases hph with rfl | ⟨rfl, -⟩ <;> simp [Phase.hasPayload]
  payloadRead := by rcases hph with rfl | ⟨rfl, -⟩ <;> simp [Phase.hasPayload]
  faultIff := by rcases hph with rfl | ⟨rfl, -⟩ <;> simp [h.fault_eq_false (by simp [hp])]
  lastTs := h.lastTs

/-- A request beyond the end of the stream reads what a request up to the end reads (R55). -/
theorem read_min (m : Memory) (pos n : Nat) : m.read pos (min n (m.size - pos)) = m.read pos n := by
  simp [Memory.read]

/-- The bytes a read gave stand just before the new `pos` (R55). -/
theorem read_before_after {m : Memory} {pos n : Nat} (h : pos ≤ m.size) :
    m.read (m.after pos n - (m.read pos n).length) (m.read pos n).length = m.read pos n := by
  have hpos : m.after pos n - min n (m.size - pos) = pos := by simp only [Memory.after]; omega
  rw [read_length, hpos, read_min]

theorem readPayload_inv {s : State} (h : s.Inv) (hp : s.phase = .pay) : (readPayload s).Inv where
  posInStream := (after_bounds h.posInStream _).2
  notSentinel := fun _ => h.notSentinel (by simp [hp, Phase.inRecord])
  payloadShort := by simp
  payloadRead := fun _ => by
    refine ⟨?_, ?_⟩
    · have := h.posInStream
      simp only [readPayload_payN, readPayload_pos, read_length, Memory.after]
      omega
    · rw [readPayload_payload]
      exact (read_before_after h.posInStream).symm
  faultIff := by simp [h.fault_eq_false (by simp [hp])]
  lastTs := h.lastTs

/-- R43 does not speak of PV's registers. -/
theorem withPv_inv {s : State} (h : s.Inv) (pv : Pv) : { s with pv := pv }.Inv :=
  ⟨h.posInStream, h.notSentinel, h.payloadShort, h.payloadRead, h.faultIff, h.lastTs⟩

theorem storeString_inv {s : State} (h : s.Inv) (hp : s.phase = .dec) (str : Str) : (storeString str s).Inv where
  posInStream := h.posInStream
  notSentinel := fun _ => h.notSentinel (by simp [hp, Phase.inRecord])
  payloadShort := fun _ => h.payloadShort (by simp [hp, Phase.hasPayload])
  payloadRead := fun _ => h.payloadRead (by simp [hp, Phase.hasPayload])
  faultIff := by simp [h.fault_eq_false (by simp [hp])]
  lastTs := h.lastTs

theorem raiseText_inv {s : State} (h : s.Inv) : (raise .invalidTextEncoding s).Inv where
  posInStream := h.posInStream
  notSentinel := by simp [Phase.inRecord]
  payloadShort := by simp [Phase.hasPayload]
  payloadRead := by simp [Phase.hasPayload]
  faultIff := by simp
  lastTs := h.lastTs

theorem decodeAs_inv {kind : DecoderKind} {s : State} (h : s.Inv) (hp : s.phase = .dec) : (decodeAs kind s).Inv := by
  rcases decodeAs_forms kind s with ⟨str, pv, e⟩ | ⟨-, -, e⟩ <;> rw [e]
  · exact storeString_inv (withPv_inv h pv) hp str
  · exact raiseText_inv h

theorem renderParity_inv {s : State} (h : s.Inv) (hp : s.phase = .dec) : (renderParity s).Inv := by
  rw [renderParity_eq]
  exact storeString_inv (withPv_inv h { s.pv with run := .idle }) hp _

theorem emitEntry_inv {s : State} (h : s.Inv) (hp : s.phase = .emit) : (emitEntry s).Inv where
  posInStream := h.posInStream
  notSentinel := by simp [Phase.inRecord]
  payloadShort := by simp [Phase.hasPayload]
  payloadRead := by simp [Phase.hasPayload]
  faultIff := by simp [h.fault_eq_false (by simp [hp])]
  lastTs := by simp [entryOf]

theorem emitIfDecoded_inv {s : State} (h : s.Inv) : (emitIfDecoded s).Inv := by
  unfold emitIfDecoded
  split
  · exact emitEntry_inv h ‹_›
  · exact h

theorem recordBody_inv {kind : DecoderKind} {c len : Byte} {ts : Half} {s : State} (h : s.Inv) (hp : s.phase = .hdr)
    (hc : (s.cfg.registry.lookup c).isSentinel = false) : (recordBody kind c len ts s).Inv := by
  have hread : (beforeDecode c len ts s).Inv := readPayload_inv (latchHeader_inv h hp (Or.inr ⟨rfl, hc⟩)) rfl
  exact emitIfDecoded_inv (decodeAs_inv hread rfl)

/-- Settles O47: each operation a step can be keeps every clause of R43. -/
theorem stepKeepsInv : Obligations.StepKeepsInv := by
  intro s t h hstep
  cases step_effect hstep with
  | short hp => exact endShort_inv h hp
  | sentinel hp c len ts => exact latchHeader_inv h hp (Or.inl rfl)
  | record hp c len ts hc => exact recordBody_inv h hp hc
  | payload hp => exact readPayload_inv h hp
  | decode hp _ => exact decodeAs_inv h hp
  | parity _ pv _ => exact withPv_inv h pv
  | render hp => exact renderParity_inv h hp
  | emit hp => exact emitEntry_inv h hp

/-! ### The ranges of R22, operation by operation -/

theorem State.InRange.idle {s : State} (h : s.InRange) (hp : s.phase ≠ .dec) : s.pv.run = .idle :=
  h.pvPhase.resolve_right hp

theorem endShort_inRange {s : State} (h : s.InRange) (hp : s.phase = .hdr) : (endShort s).InRange :=
  ⟨h.stream, h.pay, h.payN, h.pv, Or.inl (h.idle (by simp [hp])), h.dstr, h.dstrN, h.faultCode⟩

theorem latchHeader_inRange {c len : Byte} {ts : Half} {ph : Phase} {s : State} (h : s.InRange)
    (hp : s.phase = .hdr) : (latchHeader c len ts ph s).InRange :=
  ⟨h.stream, h.pay, h.payN, h.pv, Or.inl (h.idle (by simp [hp])), h.dstr, h.dstrN, h.faultCode⟩

theorem readPayload_inRange {s : State} (h : s.InRange) : (readPayload s).InRange where
  stream := h.stream
  pay := by
    have := h.pay
    simp only [readPayload_pay, overlay_length, read_length]
    omega
  payN := by
    simp only [readPayload_payN, read_length]
    omega
  pv := h.pv
  pvPhase := Or.inr rfl
  dstr := h.dstr
  dstrN := h.dstrN
  faultCode := h.faultCode

theorem withPv_inRange {s : State} (h : s.InRange) {pv : Pv} (hpv : pv.InRange)
    (hp : pv.run = .idle ∨ s.phase = .dec) :
    { s with pv := pv }.InRange :=
  ⟨h.stream, h.pay, h.payN, hpv, hp, h.dstr, h.dstrN, h.faultCode⟩

theorem storeString_inRange {s : State} {str : Str} (h : s.InRange) (hr : s.pv.run = .idle)
    (hl : str.length ≤ 510) : (storeString str s).InRange where
  stream := h.stream
  pay := h.pay
  payN := h.payN
  pv := h.pv
  pvPhase := Or.inl hr
  dstr := by
    have := h.dstr
    simp only [storeString_dstr, overlay_length]
    omega
  dstrN := hl
  faultCode := h.faultCode

theorem raiseText_inRange {s : State} (h : s.InRange) (hr : s.pv.run = .idle) :
    (raise .invalidTextEncoding s).InRange :=
  ⟨h.stream, h.pay, h.payN, h.pv, Or.inl hr, h.dstr, h.dstrN, fun _ => rfl⟩

theorem parHexString_length_le {pv : Pv} (h : pv.InRange) : (parHexString pv).length ≤ 510 := by
  have hu := unpacked_length_le pv
  have hn := h.nout
  rw [parHexString_length]
  split <;> omega

theorem renderParity_inRange {s : State} (h : s.InRange) : (renderParity s).InRange := by
  rw [renderParity_eq]
  exact storeString_inRange (withPv_inRange h (pvIdle_inRange h.pv) (Or.inl rfl)) rfl (parHexString_length_le h.pv)

theorem decodeAs_inRange {kind : DecoderKind} {s : State} (h : s.InRange) (hr : s.pv.run = .idle) :
    (decodeAs kind s).InRange := by
  have hl := payload_length_le h
  rcases decodeAs_cases kind s with ⟨hk, str, hs, e⟩ | ⟨-, e⟩ | ⟨-, -, e⟩ <;> rw [e]
  · exact storeString_inRange h hr (decodeString_length_le hk hl hs)
  · have hpv := pvCheck_inRange (p := s.cfg.parOdd) h.pv hl
    exact storeString_inRange (withPv_inRange h (pvIdle_inRange hpv) (Or.inl rfl)) rfl (parHexString_length_le hpv)
  · exact raiseText_inRange h hr

theorem emitEntry_inRange {s : State} (h : s.InRange) (hp : s.phase = .emit) : (emitEntry s).InRange :=
  ⟨h.stream, h.pay, h.payN, h.pv, Or.inl (h.idle (by simp [hp])), h.dstr, h.dstrN, h.faultCode⟩

theorem emitIfDecoded_inRange {s : State} (h : s.InRange) : (emitIfDecoded s).InRange := by
  unfold emitIfDecoded
  split
  · exact emitEntry_inRange h ‹_›
  · exact h

theorem recordBody_inRange {kind : DecoderKind} {c len : Byte} {ts : Half} {s : State} (h : s.InRange)
    (hp : s.phase = .hdr) : (recordBody kind c len ts s).InRange := by
  have hread : (beforeDecode c len ts s).InRange := readPayload_inRange (latchHeader_inRange h hp)
  exact emitIfDecoded_inRange (decodeAs_inRange hread (h.idle (by simp [hp])))

/-- Settles O48: each operation a step can be keeps the ranges of R22. -/
theorem stepKeepsRanges : Obligations.StepKeepsRanges := by
  intro s t h hstep
  cases step_effect hstep with
  | short hp => exact endShort_inRange h hp
  | sentinel hp c len ts => exact latchHeader_inRange h hp
  | record hp c len ts _ => exact recordBody_inRange h hp
  | payload _ => exact readPayload_inRange h
  | decode _ hr => exact decodeAs_inRange h hr
  | parity hp pv hpv => exact withPv_inRange h (hpv h) (Or.inr hp)
  | render _ => exact renderParity_inRange h
  | emit hp => exact emitEntry_inRange h hp

/-! ### Reading forward, entries, fault -/

/-- Settles O50: only a header and a payload read move `pos`, forward and up to the end of the stream (R55). -/
theorem stepReadsForward : Obligations.StepReadsForward := by
  intro s t h hstep
  obtain ⟨hle, hin⟩ := after_bounds h 4
  cases step_effect hstep with
  | short _ => simp [h]
  | sentinel _ c len ts => exact ⟨rfl, rfl, hle, hin⟩
  | record _ c len ts _ =>
    obtain ⟨hle', hin'⟩ := after_bounds hin len.toNat
    exact ⟨recordBody_stream .., recordBody_cfg .., by simp; omega, by simpa using hin'⟩
  | payload _ => exact ⟨rfl, rfl, after_bounds h s.len.toNat⟩
  | decode _ _ => simp [h]
  | parity _ pv _ => exact ⟨rfl, rfl, le_rfl, h⟩
  | render _ => simp [renderParity_eq, h]
  | emit _ => exact ⟨rfl, rfl, le_rfl, h⟩

/-- A step either makes no entry and does not come back to `P_HDR`, or it appends one and does (R192). -/
theorem step_entries {s t : State} (h : step s = .next t) :
    (t.entries = s.entries ∧ t.lastTs = s.lastTs ∧ t.phase ≠ .hdr) ∨
    (t.phase = .hdr ∧ ∃ e, t.entries = s.entries ++ [e]) := by
  cases step_effect h with
  | short _ => exact Or.inl (by simp)
  | sentinel _ c len ts => exact Or.inl (by simp)
  | record _ c len ts _ =>
    rcases recordBody_forms (s.cfg.registry.lookup c).kind c len ts s with ⟨str, pv, e, -⟩ | ⟨-, -, e⟩ <;>
      rw [e]
    · exact Or.inr ⟨rfl, _, rfl⟩
    · exact Or.inl (by simp)
  | payload _ => exact Or.inl (by simp)
  | decode _ _ =>
    rcases decodeAs_forms (s.cfg.registry.lookup s.ev).kind s with ⟨str, pv, e⟩ | ⟨-, -, e⟩ <;>
      exact Or.inl (by simp [e])
  | parity hp pv _ => exact Or.inl (by simp [hp])
  | render _ => exact Or.inl (by simp [renderParity_eq])
  | emit _ => exact Or.inr ⟨rfl, _, rfl⟩

/-- Settles O51: the one entry of a step and its return to `P_HDR` come together. -/
theorem entriesOnlyGrow : Obligations.EntriesOnlyGrow := by
  intro s t h
  rcases step_entries h with ⟨he, hl, hp⟩ | ⟨hp, he⟩
  · exact ⟨Or.inl he, fun _ hp' => absurd hp' hp, fun _ => ⟨he, hl⟩⟩
  · exact ⟨Or.inr he, fun _ _ => he, by simp [hp]⟩

/-- From `s`, the step to `t` recorded InvalidTextEncoding, for a Text record under the policy `fault` (R213). -/
structure TextFaulted (s t : State) : Prop where
  policy : s.cfg.textPolicy = .fault
  fault : t.fault = true
  code : t.faultCode = 2
  phase : t.phase = .faulted
  kind : (t.cfg.registry.lookup t.ev).kind = .text

/-- A step leaves `fault` alone, or records a text fault (R35). -/
theorem step_fault {s t : State} (h : step s = .next t) : t.fault = s.fault ∨ TextFaulted s t := by
  cases step_effect h with
  | short _ => exact Or.inl rfl
  | sentinel _ c len ts => exact Or.inl rfl
  | record _ c len ts _ =>
    rcases recordBody_forms (s.cfg.registry.lookup c).kind c len ts s with ⟨str, pv, e, -⟩ | ⟨hk, hpol, e⟩ <;>
      rw [e]
    · exact Or.inl rfl
    · exact Or.inr ⟨hpol, rfl, rfl, rfl, hk⟩
  | payload _ => exact Or.inl rfl
  | decode _ _ =>
    rcases decodeAs_forms (s.cfg.registry.lookup s.ev).kind s with ⟨str, pv, e⟩ | ⟨hk, hpol, e⟩ <;> rw [e]
    · exact Or.inl rfl
    · exact Or.inr ⟨hpol, rfl, rfl, rfl, hk⟩
  | parity _ pv _ => exact Or.inl rfl
  | render _ => exact Or.inl (by simp [renderParity_eq])
  | emit _ => exact Or.inl rfl

/-- Settles O52: a step leaves `fault` alone, or it is the step of a text fault. -/
theorem faultIsSticky : Obligations.FaultIsSticky := by
  intro s t h
  rcases step_fault h with hf | hf
  · rw [hf]
    exact ⟨id, Or.inl⟩
  · exact ⟨fun _ => hf.fault, fun _ => Or.inr ⟨hf.policy, hf.code, hf.phase, hf.kind⟩⟩

/-! ### Reset and the host's configuration -/

/-- After reset no record is under way, no entry is made and no fault recorded (R41). -/
theorem resetWith_inv (cfg : Config) (stream : Memory) : (resetWith cfg stream).Inv := by
  constructor <;> simp [resetWith, Phase.inRecord, Phase.hasPayload]

theorem resetWith_inRange (cfg : Config) {stream : Memory} (h : stream.wf) : (resetWith cfg stream).InRange where
  stream := h
  pay := List.length_replicate
  payN := Nat.zero_le _
  pv := pvReset_inRange
  pvPhase := Or.inl rfl
  dstr := List.length_replicate
  dstrN := Nat.zero_le _
  faultCode := fun hf => nomatch hf

/-- A launch is a reset under the given parameters with the given stream (R241, R248). -/
theorem launch_eq_resetWith (cfg : Config) (bytes : List Byte) (s : State) :
    launch cfg bytes s = resetWith cfg (Memory.ofBytes bytes) := rfl

/-- Settles O49: both are states after reset, with a canonical stream. -/
theorem resetHasInvariants : Obligations.ResetHasInvariants := by
  refine ⟨resetWith_inv _ _, resetWith_inRange _ reset_stream_wf, fun cfg bytes s => ?_⟩
  rw [launch_eq_resetWith]
  exact ⟨resetWith_inv _ _, resetWith_inRange _ (ofBytes_wf bytes)⟩

/-- Settles O57: the values of R41, read off the reset state. -/
theorem resetValues : Obligations.ResetValues :=
  ⟨⟨rfl, rfl, rfl, rfl, rfl⟩, fun s =>
    ⟨resetInput_lastTs s, resetInput_pos s, resetInput_phase s, resetInput_entries s, resetInput_fault s⟩⟩

/-- A policy is read back from its two fields, whatever the character field holds where it is not used (R37). -/
theorem ofFields_number (policy : TextPolicy) (c : BitVec 7) :
    TextPolicy.ofFields policy.number (policy.character.getD c) = some policy := by
  cases policy <;> rfl

/-- A legal kind value gives the policy with that number, and the character where the kind is 1 (R37). -/
theorem ofFields_legal {kind : BitVec 2} (h : kind ≠ 3) (c : BitVec 7) :
    ∃ policy, TextPolicy.ofFields kind c = some policy ∧ policy.number = kind ∧
      (kind = 1 → policy.character = some c) := by
  have hcases : kind = 0 ∨ kind = 1 ∨ kind = 2 := by
    revert h
    revert kind
    decide
  rcases hcases with rfl | rfl | rfl
  · exact ⟨.fault, rfl, rfl, fun h1 => absurd h1 (by decide)⟩
  · exact ⟨.replace c, rfl, rfl, fun _ => rfl⟩
  · exact ⟨.passthrough, rfl, rfl, fun h1 => absurd h1 (by decide)⟩

/-- Fields that stand for a policy give exactly the configuration they say (R37, R248). -/
theorem configureFields_of_policy {kind : BitVec 2} {c : BitVec 7} {policy : TextPolicy}
    (h : TextPolicy.ofFields kind c = some policy) (p : BitVec 1) (reg : Registry) (bound : Nat) (s : State) :
    configureFields p kind c reg bound s = .next
      (configure { parOdd := p == 1, textPolicy := policy, registry := reg, pvMaxLen := bound } s) := by
  simp only [configureFields, h]

/-- Settles O60: the fields' numbers by evaluation, the host's configuration by `ofFields_legal`. -/
theorem configurationFields : Obligations.ConfigurationFields := by
  refine ⟨⟨rfl, fun _ => rfl, rfl⟩, ofFields_number, ⟨rfl, rfl, rfl, rfl⟩, by decide,
    fun p kind c reg bound s => ⟨?_, fun hk => ?_⟩⟩
  · rintro rfl
    rfl
  · obtain ⟨policy, he, hn, hc⟩ := ofFields_legal hk c
    have hp : (p == 1).toNat = p.toNat := by
      revert p
      decide
    exact ⟨_, configureFields_of_policy he p reg bound s, hp, hn, hc, rfl, rfl, rfl⟩

/-! ### The smallest steps of a record -/

/-- Runs of small steps one after the other. -/
theorem microRun_add {m n : Nat} {s t : State} (h : microRun m s = .next t) : microRun (m + n) s = microRun n t := by
  induction m generalizing s with
  | zero =>
    cases h
    rw [Nat.zero_add]
  | succ m ih =>
    rw [Nat.succ_add]
    simp only [microRun] at h ⊢
    cases hs : microStep s with
    | next u =>
      rw [hs] at h
      exact ih h
    | fault r => simp [hs] at h
    | refused r => simp [hs] at h

theorem microRun_one {s t : State} (h : microStep s = .next t) : microRun 1 s = .next t := by
  simp [microRun, h]

/-- `s` comes to `t` in at most `k` of the smallest steps. -/
def MicroReaches (k : Nat) (s t : State) : Prop := ∃ n, n ≤ k ∧ microRun n s = .next t

theorem MicroReaches.refl (s : State) : MicroReaches 0 s s := ⟨0, le_rfl, rfl⟩

theorem MicroReaches.step {s t : State} (h : microStep s = .next t) : MicroReaches 1 s t :=
  ⟨1, le_rfl, microRun_one h⟩

theorem MicroReaches.trans {j k : Nat} {s t u : State} (h : MicroReaches j s t) (h' : MicroReaches k t u) :
    MicroReaches (j + k) s u := by
  obtain ⟨m, hm, hs⟩ := h
  obtain ⟨n, hn, ht⟩ := h'
  exact ⟨m + n, by omega, (microRun_add hs).trans ht⟩

theorem MicroReaches.mono {j k : Nat} {s t : State} (h : MicroReaches j s t) (hjk : j ≤ k) : MicroReaches k s t := by
  obtain ⟨n, hn, hs⟩ := h
  exact ⟨n, hn.trans hjk, hs⟩

theorem microStep_of_hdr {s : State} (hl : s.cfg.legal = true) (hp : s.phase = .hdr) :
    microStep s = .next (headerPhase s) := by simp [microStep, hl, hp]

theorem microStep_of_pay {s : State} (hl : s.cfg.legal = true) (hp : s.phase = .pay) :
    microStep s = .next (readPayload s) := by simp [microStep, hl, hp, payloadPhase]

theorem microStep_of_emit {s : State} (hl : s.cfg.legal = true) (hp : s.phase = .emit) :
    microStep s = .next (emitEntry s) := by simp [microStep, hl, hp, emitPhase]

theorem microStep_of_idle {s : State} (hl : s.cfg.legal = true) (hp : s.phase = .dec) (hr : s.pv.run = .idle) :
    microStep s = .next (decodePhase s) := by simp [microStep, microDecode, hl, hp, hr]

theorem microStep_of_bit {s : State} (hl : s.cfg.legal = true) (hp : s.phase = .dec) (hr : s.pv.run = .running)
    (hi : s.pv.i < 9 * s.pv.nout) : microStep s = .next (bitPhase s) := by
  simp [microStep, microDecode, hl, hp, hr, hi]

theorem microStep_of_walked {s : State} (hl : s.cfg.legal = true) (hp : s.phase = .dec) (hr : s.pv.run = .running)
    (hi : ¬ s.pv.i < 9 * s.pv.nout) : microStep s = .next (finishPhase s) := by
  simp [microStep, microDecode, hl, hp, hr, hi]

theorem microStep_of_returned {s : State} (hl : s.cfg.legal = true) (hp : s.phase = .dec)
    (hr : s.pv.run = .returned) : microStep s = .next (renderParity s) := by
  simp [microStep, microDecode, hl, hp, hr, renderPhase]

/-! #### PV bit by bit -/

/-- The bits PV has left to walk, `k` of them from its place on (R134). -/
def bitsAhead (s : State) (k : Nat) : List Bool := (List.range' s.pv.i k).map (bitAt s.payload)

theorem pvFinish_of_returned {pv : Pv} (h : pv.run = .returned) : pvFinish pv = pv := by
  simp [pvFinish, h]

/-- A running PV with `k` bits left comes to what the walk of those bits and `PV.FINISH` give as one action (R147). -/
theorem bits_reach_walk (k : Nat) {s : State} (hl : s.cfg.legal = true) (hp : s.phase = .dec)
    (hr : s.pv.run = .running) (hk : s.pv.i + k = 9 * s.pv.nout) :
    MicroReaches (k + 1) s { s with pv := pvFinish (pvWalk s.cfg.parOdd (bitsAhead s k) s.pv) } := by
  induction k generalizing s with
  | zero => exact MicroReaches.step (microStep_of_walked hl hp hr (by omega))
  | succ k ih =>
    have hbit : MicroReaches 1 s (bitPhase s) := MicroReaches.step (microStep_of_bit hl hp hr (by omega))
    have hwalk : pvWalk s.cfg.parOdd (bitsAhead s (k + 1)) s.pv = pvWalk s.cfg.parOdd
        ((List.range' (s.pv.i + 1) k).map (bitAt s.payload)) (bitPhase s).pv := by
      rw [bitsAhead, List.range'_succ, List.map_cons, pvWalk_cons hr]
      rfl
    rw [hwalk]
    rcases pvBit_run (p := s.cfg.parOdd) (b := bitAt s.payload s.pv.i) hr with hrun | hret
    · have hi : (bitPhase s).pv.i = s.pv.i + 1 := pvBit_i_of_running hrun
      have hn : (bitPhase s).pv.nout = s.pv.nout := pvBit_nout _ _ _
      have hrest := ih (s := bitPhase s) hl hp hrun (by omega)
      rw [bitsAhead, hi] at hrest
      exact (hbit.trans hrest).mono (by omega)
    · have hret' : (bitPhase s).pv.run = .returned := hret
      have hstop : (bitPhase s).pv.run ≠ .running := fun hrun => by rw [hret'] at hrun; cases hrun
      rw [pvWalk_stopped hstop, pvFinish_of_returned hret']
      exact hbit.mono (by omega)

/-- The bits `PV.CHECK` walks, by their places (R132, R134). -/
theorem take_bitString (data : List Byte) :
    (bitString data).take (bitCount data.length) = (List.range' 0 (bitCount data.length)).map (bitAt data) := by
  have hle : bitCount data.length ≤ 8 * data.length := by
    simp only [bitCount]
    omega
  rw [bitString, ← List.map_take, List.take_range, Nat.min_eq_left hle, List.range_eq_range']

/-- A started PV comes, bit by bit, to the registers `PV.CHECK` gives as one action (R136, R147). -/
theorem started_reaches_pvCheck {s : State} (hl : s.cfg.legal = true) (hp : s.phase = .dec) (pv : Pv) :
    MicroReaches (bitCount s.payload.length + 1) { s with pv := pvStart s.payload pv }
      { s with pv := pvCheck s.cfg.parOdd s.payload pv } := by
  by_cases h1 : s.payload.length = 1
  · have hret : (pvStart s.payload pv).run = .returned := by rw [pvStart_short h1]
    rw [pvCheck, pvWalk_stopped (by simp [hret]), pvFinish_of_returned hret]
    exact (MicroReaches.refl _).mono (by omega)
  · have hstart := pvStart_long h1 pv
    have hi : (pvStart s.payload pv).i = 0 := by rw [hstart]
    have hn : (pvStart s.payload pv).nout = groupCount s.payload.length := by rw [hstart]
    have hwalk := bits_reach_walk (s := { s with pv := pvStart s.payload pv }) (bitCount s.payload.length) hl hp
      (by simp only [hstart]) (by simp only [hi, hn, bitCount, groupCount]; omega)
    rw [bitsAhead] at hwalk
    simp only [hi] at hwalk
    rw [pvCheck, take_bitString]
    exact hwalk

/-! #### From the payload to the entry -/

/-- The decode phase in its smallest steps: at most one to begin, one a bit, one to finish, one to render (R191). -/
theorem decode_reaches {s : State} (hl : s.cfg.legal = true) (hp : s.phase = .dec) (hr : s.pv.run = .idle) :
    MicroReaches (bitCount s.payload.length + 3) s (decodeByRegistry s) := by
  have hbegin := MicroReaches.step (microStep_of_idle hl hp hr)
  rcases decodePhase_cases s with ⟨hk, e⟩ | ⟨-, e⟩ <;> rw [e] at hbegin
  · have hrender : MicroReaches 1 { s with pv := pvCheck s.cfg.parOdd s.payload s.pv } (decodeByRegistry s) := by
      rw [decodeByRegistry, hk]
      exact MicroReaches.step (microStep_of_returned hl hp (pvCheck_run _ _ _))
    exact ((hbegin.trans (started_reaches_pvCheck hl hp s.pv)).trans hrender).mono (by omega)
  · exact hbegin.mono (by omega)

theorem emit_reaches {s : State} (hl : s.cfg.legal = true) : MicroReaches 1 s (emitIfDecoded s) := by
  unfold emitIfDecoded
  split
  · exact MicroReaches.step (microStep_of_emit hl ‹_›)
  · exact (MicroReaches.refl s).mono (by omega)

/-- A latched record comes to its end in 2039 steps at most: one to read, one to emit, three to begin, finish and
render, and one for each of the 2034 bits of 226 groups (R6). -/
theorem record_reaches {s : State} (hl : s.cfg.legal = true) (hp : s.phase = .pay) (hr : s.pv.run = .idle) :
    MicroReaches 2039 s (emitIfDecoded (decodeByRegistry (readPayload s))) := by
  have hread := MicroReaches.step (microStep_of_pay hl hp)
  have hdec := decode_reaches (s := readPayload s) hl rfl hr
  have hemit := emit_reaches (s := decodeByRegistry (readPayload s)) (by simpa [decodeByRegistry] using hl)
  have hbits : bitCount (readPayload s).payload.length ≤ 2034 := by
    have hlen : s.len.toNat < 256 := s.len.isLt
    simp only [readPayload_payload, read_length, bitCount]
    omega
  exact ((hread.trans hdec).trans hemit).mono (by omega)

/-- Settles O37: the header, then `record_reaches` where `RR.NEXT` gives a record. -/
theorem microStepsReachRecordStep : Obligations.MicroStepsReachRecordStep := by
  intro s hl hp hr
  have hhead := MicroReaches.step (microStep_of_hdr hl hp)
  change MicroReaches 2040 s (ldStep s)
  unfold ldStep rrNext
  cases hshort : isShort s
  · cases hsent : isSentinel s (headerCode s.stream s.pos) <;> simp only [headerPhase, hshort, hsent] at hhead
    · exact (hhead.trans (record_reaches hl rfl hr)).mono (by omega)
    · exact hhead.mono (by omega)
  · simp only [headerPhase, hshort] at hhead
    exact hhead.mono (by omega)

end Sys2Proof.Machine

/-! ## What an instruction leaves unchanged (spec/20_memory.md R51, R69) -/

namespace Sys2Proof.Machine

/-! ### What a record leaves unchanged -/

/-- A record keeps the entries already made: it appends its own, or faults and has none (R33, R191). -/
theorem recordBody_entries_prefix (kind : DecoderKind) (c len : Byte) (ts : Half) (s : State) :
    s.entries <+: (recordBody kind c len ts s).entries := by
  rcases recordBody_forms kind c len ts s with ⟨str, pv, e, -⟩ | ⟨-, -, e⟩ <;> rw [e]
  · exact List.prefix_append s.entries _
  · exact List.prefix_refl s.entries

/-- Only ParityHex calls PV (R115, R131). -/
theorem recordBody_pv {kind : DecoderKind} (hk : kind ≠ .parityHex) (c len : Byte) (ts : Half) (s : State) :
    (recordBody kind c len ts s).pv = s.pv := by
  rcases recordBody_forms kind c len ts s with ⟨str, pv, e, hpv, -⟩ | ⟨-, -, e⟩ <;> rw [e]
  · exact (hpv hk).1
  · rfl

/-- Only a Text record can fault (R115, R213). -/
theorem recordBody_fault {kind : DecoderKind} (hk : kind ≠ .text) (c len : Byte) (ts : Half) (s : State) :
    (recordBody kind c len ts s).fault = s.fault ∧ (recordBody kind c len ts s).faultCode = s.faultCode := by
  rcases recordBody_forms kind c len ts s with ⟨str, pv, e, -⟩ | ⟨ht, -, -⟩
  · rw [e]
    exact ⟨rfl, rfl⟩
  · exact absurd ht hk

/-- A record of kind Empty or RawHex, the kinds that neither call PV nor fault. -/
theorem recordBody_pv_fault {kind : DecoderKind} (hp : kind ≠ .parityHex) (ht : kind ≠ .text) (c len : Byte)
    (ts : Half) (s : State) :
    (recordBody kind c len ts s).pv = s.pv ∧ (recordBody kind c len ts s).fault = s.fault ∧
      (recordBody kind c len ts s).faultCode = s.faultCode :=
  ⟨recordBody_pv hp c len ts s, recordBody_fault ht c len ts s⟩

/-! ### What every instruction leaves unchanged -/

/-- No instruction writes the stream or the parameters (R51, R21), and none takes an entry back (R33). -/
theorem exec_keeps_stream_cfg_entries {i : Instr} {s t : State} (h : exec i s = .next t) :
    t.stream = s.stream ∧ t.cfg = s.cfg ∧ s.entries <+: t.entries := by
  rcases exec_cases h with ⟨-, c, len, ts, -, rfl⟩ | ⟨-, -, kind, c, len, ts, rfl⟩ | ⟨-, -, -, d, p, -, rfl⟩
  · exact ⟨rfl, rfl, List.prefix_refl s.entries⟩
  · exact ⟨recordBody_stream .., recordBody_cfg .., recordBody_entries_prefix ..⟩
  · exact ⟨rfl, rfl, List.prefix_refl s.entries⟩

/-- Settles O27: the frame all instructions share, then each form's own by the decoder kind it runs. -/
theorem instructionFrame : Obligations.InstructionFrame := by
  intro i s t h
  obtain ⟨hstream, hcfg, hentries⟩ := exec_keeps_stream_cfg_entries h
  refine ⟨fun a => by rw [hstream], by rw [hstream], hcfg, hentries, ?_⟩
  cases i with
  | grp9 d p =>
    obtain ⟨-, -, -, rfl⟩ := atGroup_next_iff.mp h
    rfl
  | empty c len ts =>
    obtain ⟨-, rfl⟩ := atHeader_next_iff.mp h
    simp
  | generic len ts =>
    obtain ⟨-, rfl⟩ := atHeader_next_iff.mp h
    exact recordBody_pv (by decide) ..
  | recText c len ts =>
    obtain ⟨-, rfl⟩ := atHeader_next_iff.mp h
    exact recordBody_pv (by decide) ..
  | codecRxWParity c len ts =>
    obtain ⟨-, rfl⟩ := atHeader_next_iff.mp h
    exact recordBody_fault (by decide) ..
  | recParHex c len ts =>
    obtain ⟨-, rfl⟩ := atHeader_next_iff.mp h
    exact recordBody_fault (by decide) ..
  | unknown c len ts =>
    obtain ⟨-, rfl⟩ := atHeader_next_iff.mp h
    exact recordBody_pv_fault (by decide) (by decide) ..
  | recRawHex c len ts =>
    obtain ⟨-, rfl⟩ := atHeader_next_iff.mp h
    exact recordBody_pv_fault (by decide) (by decide) ..
  | resetApp c len ts =>
    obtain ⟨-, rfl⟩ := atHeader_next_iff.mp h
    exact recordBody_pv_fault (by decide) (by decide) ..
  | recEmptyDec c len ts =>
    obtain ⟨-, rfl⟩ := atHeader_next_iff.mp h
    exact recordBody_pv_fault (by decide) (by decide) ..

end Sys2Proof.Machine

/-! ## Headers and groups: the decoder and the encoder agree (spec/30_encoding.md R81, R82, R94, R95) -/

namespace Sys2Proof

/-! ### The byte order of a timestamp and the bit order of a byte -/

/-- The two bytes of a timestamp, put together again (R53). -/
@[simp] theorem tsOfBytes_tsHi_tsLo (ts : Half) : tsOfBytes (tsHi ts) (tsLo ts) = ts :=
  BitVec.extractLsb'_append_extractLsb'_eq_extractLsb' (x := ts) rfl |>.trans BitVec.extractLsb'_eq_self

@[simp] theorem tsHi_tsOfBytes (hi lo : Byte) : tsHi (tsOfBytes hi lo) = hi :=
  BitVec.extractLsb'_append_eq_left

@[simp] theorem tsLo_tsOfBytes (hi lo : Byte) : tsLo (tsOfBytes hi lo) = lo :=
  BitVec.extractLsb'_append_eq_right

/-- Bit `k` of a byte made from bits is the `k`-th of them (R54). -/
theorem getLsbD_byteOfBits (bs : List Bool) {k : Nat} (hk : k < 8) : (byteOfBits bs).getLsbD k = bs.getD k false := by
  induction bs generalizing k with
  | nil => simp [byteOfBits]
  | cons b bs ih =>
    cases k with
    | zero => cases b <;> simp [byteOfBits]
    | succ k =>
      have hk' : k < 8 := by omega
      cases b <;> simpa [byteOfBits, hk, hk'] using ih hk'

/-- A byte is made of its own eight bits (R82). -/
theorem byteOfBits_getLsbD (d : Byte) : byteOfBits ((List.range 8).map d.getLsbD) = d := by
  refine BitVec.eq_of_getLsbD_eq fun k hk => ?_
  rw [getLsbD_byteOfBits _ hk]
  simp [hk]

/-! ### Groups -/

/-- The first eight bits of a bit string are those of its first byte (R54). -/
theorem bitAt_cons_of_lt (d : Byte) (rest : List Byte) {k : Nat} (hk : k < 8) : bitAt (d :: rest) k = d.getLsbD k := by
  simp [bitAt, Nat.div_eq_of_lt hk, Nat.mod_eq_of_lt hk]

theorem groupData_zero (d : Byte) (rest : List Byte) : groupData (d :: rest) 0 = d := by
  have hbits : (List.range 8).map (fun k => bitAt (d :: rest) (9 * 0 + k)) = (List.range 8).map d.getLsbD :=
    List.map_congr_left fun k hk => by simpa using bitAt_cons_of_lt d rest (List.mem_range.mp hk)
  rw [groupData, hbits, byteOfBits_getLsbD]

theorem groupParity_zero (d e : Byte) (rest : List Byte) : groupParity (d :: e :: rest) 0 = e.getLsbD 0 := rfl

/-- Settles O2: the data byte is the string's first byte, the parity bit the lowest of its second. -/
theorem groupsRoundTrip : Obligations.GroupsRoundTrip := by
  intro d p rest
  have hp : (if p then (1 : Byte) else 0).getLsbD 0 = p := by cases p <;> rfl
  simp only [encode, List.cons_append, decodeGroup, groupData_zero, groupParity_zero, hp]

/-! ### Headers -/

theorem decode_encodeHeader (reg : Registry) (c len : Byte) (ts : Half) (rest : List Byte) :
    decode reg (encodeHeader c len ts ++ rest) = .ok (decodeHeader reg c len (tsHi ts) (tsLo ts), rest) := rfl

@[simp] theorem encodeHeader_tsOfBytes (c len hi lo : Byte) :
    encodeHeader c len (tsOfBytes hi lo) = [c, len, hi, lo] := by
  simp [encodeHeader]

@[simp] theorem descGeneric_isSentinel : descGeneric.isSentinel = false := rfl
@[simp] theorem descUnknown_isSentinel : descUnknown.isSentinel = false := rfl
@[simp] theorem descResetApp_isSentinel : descResetApp.isSentinel = false := rfl
@[simp] theorem descCodecRxWParity_isSentinel : descCodecRxWParity.isSentinel = false := rfl
@[simp] theorem descGeneric_kind : descGeneric.kind = .text := rfl
@[simp] theorem descUnknown_kind : descUnknown.kind = .rawHex := rfl
@[simp] theorem descResetApp_kind : descResetApp.kind = .empty := rfl
@[simp] theorem descCodecRxWParity_kind : descCodecRxWParity.kind = .parityHex := rfl

section
variable {reg : Registry} {c : Byte} (len hi lo : Byte)

/-- The name "EMPTY" is looked at before the kind (R173). -/
theorem decodeHeader_of_sentinel (hs : (reg.lookup c).isSentinel = true) :
    decodeHeader reg c len hi lo = .empty c len (tsOfBytes hi lo) := by
  simp [decodeHeader, hs]

variable (hs : (reg.lookup c).isSentinel = false)
include hs

theorem decodeHeader_of_empty (hk : (reg.lookup c).kind = .empty) :
    decodeHeader reg c len hi lo = if reg.lookup c = descResetApp then .resetApp c len (tsOfBytes hi lo)
      else .recEmptyDec c len (tsOfBytes hi lo) := by
  simp [decodeHeader, hs, hk]

theorem decodeHeader_of_text (hk : (reg.lookup c).kind = .text) :
    decodeHeader reg c len hi lo = if c = 0x10 then .generic len (tsOfBytes hi lo)
      else .recText c len (tsOfBytes hi lo) := by
  simp [decodeHeader, hs, hk]

theorem decodeHeader_of_rawHex (hk : (reg.lookup c).kind = .rawHex) :
    decodeHeader reg c len hi lo = if reg.lookup c = descUnknown then .unknown c len (tsOfBytes hi lo)
      else .recRawHex c len (tsOfBytes hi lo) := by
  simp [decodeHeader, hs, hk]

theorem decodeHeader_of_parityHex (hk : (reg.lookup c).kind = .parityHex) :
    decodeHeader reg c len hi lo = if reg.lookup c = descCodecRxWParity then .codecRxWParity c len (tsOfBytes hi lo)
      else .recParHex c len (tsOfBytes hi lo) := by
  simp [decodeHeader, hs, hk]

end

/-- The decoder's choice among the rows of R95 is the row whose condition holds: the conditions exclude each other. -/
theorem decode_encode {reg : Registry} {i : Instr} (hw : i.wellFormed reg = true) (hg : ∀ d p, i ≠ .grp9 d p)
    (rest : List Byte) : decode reg (encode i ++ rest) = .ok (i, rest) := by
  cases i with
  | grp9 d p => exact absurd rfl (hg d p)
  | empty c len ts =>
    have hs : (reg.lookup c).isSentinel = true := hw
    simp [encode, decode_encodeHeader, decodeHeader_of_sentinel, hs]
  | generic len ts =>
    have hd : reg.lookup 0x10#8 = descGeneric := by simpa [Instr.wellFormed] using hw
    simp [encode, decode_encodeHeader, decodeHeader_of_text, hd]
  | unknown c len ts =>
    have hd : reg.lookup c = descUnknown := by simpa [Instr.wellFormed] using hw
    simp [encode, decode_encodeHeader, decodeHeader_of_rawHex, hd]
  | resetApp c len ts =>
    have hd : reg.lookup c = descResetApp := by simpa [Instr.wellFormed] using hw
    simp [encode, decode_encodeHeader, decodeHeader_of_empty, hd]
  | codecRxWParity c len ts =>
    have hd : reg.lookup c = descCodecRxWParity := by simpa [Instr.wellFormed] using hw
    simp [encode, decode_encodeHeader, decodeHeader_of_parityHex, hd]
  | recEmptyDec c len ts =>
    obtain ⟨hk, hs, hn⟩ : (reg.lookup c).kind = .empty ∧ (reg.lookup c).isSentinel = false ∧
        reg.lookup c ≠ descResetApp := by simpa [Instr.wellFormed] using hw
    simp [encode, decode_encodeHeader, decodeHeader_of_empty, hk, hs, hn]
  | recText c len ts =>
    obtain ⟨hk, hs, hn⟩ : (reg.lookup c).kind = .text ∧ (reg.lookup c).isSentinel = false ∧ c ≠ 0x10#8 := by
      simpa [Instr.wellFormed] using hw
    simp [encode, decode_encodeHeader, decodeHeader_of_text, hk, hs, hn]
  | recRawHex c len ts =>
    obtain ⟨hk, hs, hn⟩ : (reg.lookup c).kind = .rawHex ∧ (reg.lookup c).isSentinel = false ∧
        reg.lookup c ≠ descUnknown := by simpa [Instr.wellFormed] using hw
    simp [encode, decode_encodeHeader, decodeHeader_of_rawHex, hk, hs, hn]
  | recParHex c len ts =>
    obtain ⟨hk, hs, hn⟩ : (reg.lookup c).kind = .parityHex ∧ (reg.lookup c).isSentinel = false ∧
        reg.lookup c ≠ descCodecRxWParity := by simpa [Instr.wellFormed] using hw
    simp [encode, decode_encodeHeader, decodeHeader_of_parityHex, hk, hs, hn]

/-- Settles O1: `decode_encode`. -/
theorem recordHeadersRoundTrip : Obligations.RecordHeadersRoundTrip :=
  fun _ _ rest hw hg => decode_encode hw hg rest

theorem Registry.legal_iff {reg : Registry} : reg.legal = true ↔
    reg.lookup 0x00 = descEmpty ∧ reg.lookup 0x10 = descGeneric ∧ reg.lookup 0x99 = descUnknown := by
  simp [Registry.legal]

/-- The decoder keeps every bit of a header (R94); GENERIC, which does not carry its code, stands for 0x10 only. -/
theorem encode_decodeHeader (reg : Registry) (c len hi lo : Byte) :
    encode (decodeHeader reg c len hi lo) = [c, len, hi, lo] := by
  cases hs : (reg.lookup c).isSentinel
  · cases hk : (reg.lookup c).kind with
    | empty =>
      rw [decodeHeader_of_empty _ _ _ hs hk]
      split <;> simp [encode]
    | text =>
      rw [decodeHeader_of_text _ _ _ hs hk]
      split
      · next hc => simp [encode, hc]
      · simp [encode]
    | rawHex =>
      rw [decodeHeader_of_rawHex _ _ _ hs hk]
      split <;> simp [encode]
    | parityHex =>
      rw [decodeHeader_of_parityHex _ _ _ hs hk]
      split <;> simp [encode]
  · simp [decodeHeader_of_sentinel, hs, encode]

/-- The decoder's row has its condition met; only GENERIC, whose condition is on the entry of 0x10, needs a legal
registry (R91). -/
theorem decodeHeader_wellFormed {reg : Registry} (h : reg.legal = true) (c len hi lo : Byte) :
    (decodeHeader reg c len hi lo).wellFormed reg = true := by
  obtain ⟨-, hgeneric, -⟩ := Registry.legal_iff.mp h
  cases hs : (reg.lookup c).isSentinel
  · cases hk : (reg.lookup c).kind with
    | empty =>
      rw [decodeHeader_of_empty _ _ _ hs hk]
      split <;> simp [Instr.wellFormed, *]
    | text =>
      rw [decodeHeader_of_text _ _ _ hs hk]
      split
      · simpa [Instr.wellFormed] using hgeneric
      · next hc => simpa [Instr.wellFormed, hs, hk] using hc
    | rawHex =>
      rw [decodeHeader_of_rawHex _ _ _ hs hk]
      split <;> simp [Instr.wellFormed, *]
    | parityHex =>
      rw [decodeHeader_of_parityHex _ _ _ hs hk]
      split <;> simp [Instr.wellFormed, *]
  · rw [decodeHeader_of_sentinel _ _ _ hs]
    exact hs

/-- Settles O3: the instruction is the decoder's own row. -/
theorem everyHeaderIsARecord : Obligations.EveryHeaderIsARecord :=
  fun reg c len hi lo _ h => ⟨decodeHeader reg c len hi lo, rfl, decodeHeader_wellFormed h c len hi lo,
    encode_decodeHeader reg c len hi lo⟩

/-! ### The default registry -/

/-- The three rows the source fixes come before the open part of the default registry, so they count (R86 to R88). -/
theorem Registry.default_lookup : Registry.default.lookup 0x00 = descEmpty ∧
    Registry.default.lookup 0x10 = descGeneric ∧ Registry.default.lookup 0x99 = descUnknown :=
  ⟨rfl, rfl, rfl⟩

/-- Settles O58: the three fixed codes by `Registry.default_lookup`, the rest by R7's defaults. -/
theorem resetConfigurationLegal : Obligations.ResetConfigurationLegal :=
  ⟨Registry.legal_iff.mpr Registry.default_lookup, rfl, rfl, Registry.default_lookup⟩

/-- Settles O4: each word by evaluation; a header's code is one the default registry fixes. -/
theorem tableWordsDecode : Obligations.TableWordsDecode :=
  ⟨rfl, rfl, rfl, rfl, rfl, rfl⟩

end Sys2Proof

namespace Sys2Proof.Machine

/-- Settles O46: the configuration is looked at before the phase. -/
theorem illegalConfigurationRefused : Obligations.IllegalConfigurationRefused :=
  fun s h => by simp [step, h]

end Sys2Proof.Machine

/-! ## The records that make an entry (R174, R190 to R193) -/

namespace Sys2Proof.Machine

/-! ### The effect of a record -/

/-- R193 in 16-bit arithmetic: the corrected difference is the wrapping subtraction. -/
theorem tsDelta_eq_sub (ts last : Half) : tsDelta ts last = ts - last := by
  have hts := ts.isLt
  have hlast := last.isLt
  refine BitVec.eq_of_toNat_eq ?_
  unfold tsDelta
  split
  · simp only [BitVec.toNat_ofNat, BitVec.toNat_sub]
    omega
  · simp only [BitVec.toNat_ofNat, BitVec.toNat_sub]

/-- The payload a record reads (R172, R174). -/
@[simp] theorem beforeDecode_payload (c len : Byte) (ts : Half) (s : State) :
    (beforeDecode c len ts s).payload = s.nextPayload len := readPayload_payload _

/-- A record read and emitted with a string has done what every record that makes an entry does, whatever PV's
registers have become. -/
theorem recordDone_emitEntry (c len : Byte) (ts : Half) (s : State) (str : Str) (pv : Pv) :
    RecordDone s (emitEntry (storeString str { beforeDecode c len ts s with pv := pv })) c len ts str where
  ev := rfl
  len := rfl
  ts := rfl
  payN := rfl
  payload := beforeDecode_payload c len ts s
  payRest := overlay_drop _ _
  pos := rfl
  phase := rfl
  lastTs := rfl
  dstrN := rfl
  decoded := storeString_decoded _ _
  dstrRest := overlay_drop _ _
  entries := by simp [entryOf, tsDelta_eq_sub]
  stream := rfl
  cfg := rfl
  fault := rfl
  faultCode := rfl

/-- A record whose decoder does not use PV and gives a string makes its entry from it (R191, R192). -/
theorem recordBody_recordDone {kind : DecoderKind} {len : Byte} {s : State} {str : Str} (hk : kind ≠ .parityHex)
    (h : decodeString s.cfg kind (s.nextPayload len) = .str str) (c : Byte) (ts : Half) :
    RecordDone s (recordBody kind c len ts s) c len ts str := by
  rcases recordBody_cases kind c len ts s with ⟨-, str', h', e⟩ | ⟨hk', -⟩ | ⟨-, ⟨j, b, h'⟩, -⟩
  · rw [beforeDecode_payload, h] at h'
    cases h'
    rw [e]
    exact recordDone_emitEntry c len ts s str s.pv
  · exact absurd hk' hk
  · rw [beforeDecode_payload, h] at h'
    cases h'

/-- The same of an instruction that runs such a record in `P_HDR`: its next state, and PV unchanged (R115). -/
theorem atHeader_recordDone {kind : DecoderKind} {len : Byte} {s : State} {str : Str} (hp : s.phase = .hdr)
    (hk : kind ≠ .parityHex) (h : decodeString s.cfg kind (s.nextPayload len) = .str str) (c : Byte) (ts : Half) :
    ∃ t, atHeader s (recordBody kind c len ts s) = .next t ∧ RecordDone s t c len ts str ∧ t.pv = s.pv :=
  ⟨_, atHeader_of_hdr hp _, recordBody_recordDone hk h c ts, recordBody_pv hk c len ts s⟩

/-! ### Text -/

/-- The induction over a text, said once: where each byte gives a character, the string is those characters (R112). -/
theorem decTextFrom_eq_map {policy : TextPolicy} {f : Byte → Byte} {bs : List Byte}
    (h : ∀ b ∈ bs, ∀ j rest, decTextFrom policy j (b :: rest) = .cons (f b) (decTextFrom policy (j + 1) rest))
    (j : Nat) : decTextFrom policy j bs = .str (bs.map f) := by
  induction bs generalizing j with
  | nil => rfl
  | cons b bs ih =>
    rw [h b (by simp), ih fun b' hb' => h b' (by simp [hb'])]
    rfl

/-- 7-bit bytes are copied under every policy, and `passthrough` copies the others too (R112). -/
theorem decText_eq_self {policy : TextPolicy} {payload : List Byte}
    (h : (∀ b ∈ payload, b.toNat ≤ 0x7F) ∨ policy = .passthrough) : decText policy payload = .str payload := by
  have hmap : decText policy payload = .str (payload.map id) := decTextFrom_eq_map (fun b hb j rest => ?_) 0
  · simpa using hmap
  · rcases h with h | rfl
    · simp [decTextFrom, h b hb]
    · simp [decTextFrom]

/-- `replace c` puts `c` for every byte above 0x7F (R112). -/
theorem decText_replace (c : BitVec 7) (payload : List Byte) :
    decText (.replace c) payload = .str (payload.map (fun b => if b.toNat ≤ 0x7F then b else c.setWidth 8)) := by
  refine decTextFrom_eq_map (fun b _ j rest => ?_) 0
  simp only [decTextFrom]
  split <;> rfl

/-- Settles O22: GENERIC and REC.TEXT are the Text record, its string by the policy. -/
theorem textRecordsAppend : Obligations.TextRecordsAppend := by
  intro c len ts s hp
  refine ⟨fun htext => ?_, fun r hr => ?_⟩
  · have h : decodeString s.cfg .text (s.nextPayload len) = .str (s.nextPayload len) := decText_eq_self htext
    exact ⟨atHeader_recordDone hp (by decide) h 0x10 ts, atHeader_recordDone hp (by decide) h c ts⟩
  · have h : decodeString s.cfg .text (s.nextPayload len) =
        .str ((s.nextPayload len).map (fun b => if b.toNat ≤ 0x7F then b else r.setWidth 8)) := by
      rw [decodeString, hr]
      exact decText_replace r _
    exact ⟨atHeader_recordDone hp (by decide) h 0x10 ts, atHeader_recordDone hp (by decide) h c ts⟩

/-- Settles O24: UNKNOWN and REC.RAWHEX are the RawHex record; the condition UnknownEventCode changes nothing (R214). -/
theorem rawHexRecordsAppend : Obligations.RawHexRecordsAppend :=
  fun c _ ts _ hp =>
    ⟨atHeader_recordDone hp (by decide) rfl c ts, atHeader_recordDone hp (by decide) rfl c ts⟩

end Sys2Proof.Machine

/-! ## The decoders: their strings, their sizes, and the records of the Empty and ParityHex kinds -/

namespace Sys2Proof.Machine

/-! ### HEX (R116, R117) -/

/-- Where the two digits of byte `j` stand in the hex string (R116). -/
theorem hex_getElem? (bytes : List Byte) (j : Nat) (h : j < bytes.length) :
    (hex bytes)[2 * j]? = some (hexDigit (bytes[j] >>> 4)) ∧
    (hex bytes)[2 * j + 1]? = some (hexDigit (bytes[j] &&& 0x0F)) := by
  induction bytes generalizing j with
  | nil => cases h
  | cons b bs ih =>
    cases j with
    | zero => exact ⟨rfl, rfl⟩
    | succ j => exact ih j (by simpa using h)

/-- The sixteen character codes of R117, in order. -/
theorem hexDigit_ofNat : ∀ n < 16, some (hexDigit (BitVec.ofNat 8 n)) =
    ([0x30, 0x31, 0x32, 0x33, 0x34, 0x35, 0x36, 0x37, 0x38, 0x39, 0x61, 0x62, 0x63, 0x64,
      0x65, 0x66] : List Byte)[n]? := by
  decide

theorem highNibble_eq_ofNat (b : Byte) : b >>> 4 = BitVec.ofNat 8 (b.toNat / 16) := by
  refine BitVec.eq_of_toNat_eq ?_
  simp only [BitVec.toNat_ushiftRight, Nat.shiftRight_eq_div_pow, BitVec.toNat_ofNat]
  omega

theorem lowNibble_eq_ofNat (b : Byte) : b &&& 0x0F = BitVec.ofNat 8 (b.toNat % 16) := by
  have hmask : (b &&& 0x0F).toNat = b.toNat % 16 := Nat.and_two_pow_sub_one_eq_mod b.toNat 4
  refine BitVec.eq_of_toNat_eq ?_
  simp only [hmask, BitVec.toNat_ofNat]
  omega

/-- Settles O17: byte `j`'s digits stand at `2j` and `2j + 1`, and each is its nibble's code. -/
theorem hexDigits : Obligations.HexDigits := by
  intro bytes
  refine ⟨hex_length bytes, fun j h => ?_⟩
  obtain ⟨hhigh, hlow⟩ := hex_getElem? bytes j h
  have hbyte : bytes[j].toNat < 256 := bytes[j].isLt
  rw [hhigh, hlow, highNibble_eq_ofNat, lowNibble_eq_ofNat]
  exact ⟨hexDigit_ofNat _ (by omega), hexDigit_ofNat _ (by omega)⟩

/-! ### Text (R112) -/

/-- Under the policy `fault`, Text names the first byte above 0x7F and its index, counted from where it started. -/
theorem decTextFrom_fault (k : Nat) {bs : List Byte} {j : Nat} (h : j < bs.length) (hbad : 0x7F < bs[j].toNat)
    (hgood : ∀ b ∈ bs.take j, b.toNat ≤ 0x7F) : decTextFrom .fault k bs = .invalidText (k + j) bs[j] := by
  induction bs generalizing k j with
  | nil => cases h
  | cons b bs ih =>
    cases j with
    | zero =>
      have hb : ¬ b.toNat ≤ 0x7F := Nat.not_le.mpr hbad
      simp [decTextFrom, hb]
    | succ j =>
      have hb : b.toNat ≤ 0x7F := hgood b (by simp)
      have hrest := ih (k + 1) (by simpa using h) hbad fun b' hb' => hgood b' (by simp [hb'])
      simp only [decTextFrom, hb, if_true, hrest, DecodeResult.cons, List.getElem_cons_succ]
      congr 1
      omega

/-- Settles O18: Text copies, replaces or stops, by the policy. -/
theorem textPolicies : Obligations.TextPolicies := by
  intro payload
  refine ⟨fun policy h => decText_eq_self (Or.inl h), decText_eq_self (Or.inr rfl),
    fun c => decText_replace c payload, fun j h hbad hgood => ?_⟩
  have hfault := decTextFrom_fault 0 h hbad hgood
  rwa [Nat.zero_add] at hfault

/-! ### The size of a decoded string (R118) -/

/-- The walk and the finish keep the buffer's size. -/
theorem pvCheck_out_length (p : Bool) (data : List Byte) (pv : Pv) :
    (pvCheck p data pv).out.length = (pvStart data pv).out.length := by
  rcases pvFinish_cases (pvWalk p ((bitString data).take (bitCount data.length)) (pvStart data pv)) with e | ⟨-, e⟩ <;>
    simp [pvCheck, e]

/-- The start writes one buffer byte a group, or the byte it passes through. -/
theorem pvStart_nout_le_out_length (data : List Byte) (pv : Pv) :
    (pvStart data pv).nout ≤ (pvStart data pv).out.length := by
  by_cases h : data.length = 1
  · simp [pvStart_short h, h]
  · simp [pvStart_long h]

/-- `PV.CHECK` unpacks one byte a group, and one byte of a one-byte input (R130, R132). -/
theorem checkResult_length (p : Bool) (data : List Byte) :
    (checkResult p data).2.length = if data.length = 1 then 1 else 8 * data.length / 9 := by
  have hroom := pvStart_nout_le_out_length data pvReset
  rw [pvStart_nout] at hroom
  simp only [checkResult, Pv.unpacked, List.length_take, pvCheck_out_length, pvCheck_nout]
  exact Nat.min_eq_left hroom

/-- ParityHex gives two digits an unpacked byte, and the marker where the result is not valid (R114). -/
theorem decParHex_length {p : Bool} {data : List Byte} {str : Str} (h : decParHex p data = .str str) :
    str.length = (if data.length = 1 then 2 else 2 * (8 * data.length / 9)) +
      (if (checkResult p data).1 then 0 else 1) := by
  cases h
  have hlen : 2 * (checkResult p data).2.length = if data.length = 1 then 2 else 2 * (8 * data.length / 9) := by
    rw [checkResult_length]
    split <;> rfl
  rw [← hlen]
  exact parHexString_length (pvCheck p data pvReset)

/-- Settles O19: the size of each kind's string; the bound for ParityHex from its size, for the others from
`decodeString_length_le`. -/
theorem decodedSizes : Obligations.DecodedSizes := by
  intro cfg payload str
  refine ⟨fun h => ?_, decTextFrom_length, fun h => ?_, decParHex_length, fun kind hl h => ?_⟩
  · cases h
    rfl
  · cases h
    exact hex_length payload
  · by_cases hk : kind = .parityHex
    · subst hk
      have hlen := decParHex_length h
      split_ifs at hlen <;> omega
    · exact decodeString_length_le hk hl h

/-! ### PV's result does not depend on what its registers held (R131) -/

/-- Two PVs that no later result can tell apart: they are in the same condition and have unpacked the same bytes; while
they run they stand at the same bit with the same count, and once they have returned they agree on `pv_valid`. -/
structure Pv.Agrees (a b : Pv) : Prop where
  run : a.run = b.run
  nout : a.nout = b.nout
  gdone : a.gdone = b.gdone
  unpacked : a.unpacked = b.unpacked
  i : a.run = .running → a.i = b.i
  one : a.run = .running → a.one = b.one
  valid : a.run = .returned → a.valid = b.valid

/-- A data bit changes the unpacked bytes as it changes the buffer: in its own output byte (R138). -/
theorem pvDataBit_unpacked (b : Bool) (pv : Pv) : (pvDataBit b pv).unpacked =
    pv.unpacked.modify (pv.i / 9) (fun o => o ||| ((if b then (1 : Byte) else 0) <<< (pv.i % 9))) :=
  List.take_modify _ _ _ _

theorem take_overlay {new : List Byte} {n : Nat} (h : new.length = n) (old : List Byte) :
    (overlay new old).take n = new := h ▸ overlay_take new old

/-- The start makes any two PVs agree: it writes every register a later result reads (R130, R132, R135). -/
theorem pvStart_agrees (data : List Byte) (a b : Pv) : (pvStart data a).Agrees (pvStart data b) := by
  by_cases h : data.length = 1
  · rw [pvStart_short h, pvStart_short h]
    exact ⟨rfl, rfl, rfl, (take_overlay h _).trans (take_overlay h _).symm, nofun, nofun, fun _ => rfl⟩
  · have hzeros : (List.replicate (groupCount data.length) (0 : Byte)).length = groupCount data.length :=
      List.length_replicate
    rw [pvStart_long h, pvStart_long h]
    exact ⟨rfl, rfl, rfl, (take_overlay hzeros _).trans (take_overlay hzeros _).symm, fun _ => rfl, fun _ => rfl,
      nofun⟩

/-- One bit keeps the agreement: where and what a running PV stands at decides the branch it takes (R137, R138). -/
theorem pvBit_agrees {a b : Pv} (h : a.Agrees b) (hr : a.run = .running) (p bit : Bool) :
    (pvBit p bit a).Agrees (pvBit p bit b) := by
  have hi := h.i hr
  have hone := h.one hr
  rcases pvBit_cases p bit a with ⟨hk, e⟩ | ⟨hk, hv, e⟩ | ⟨hk, hv, e⟩
  · rw [e, pvBit_data p bit (hi ▸ hk)]
    have hu : (pvDataBit bit a).unpacked = (pvDataBit bit b).unpacked := by
      rw [pvDataBit_unpacked, pvDataBit_unpacked, h.unpacked, hi]
    exact ⟨h.run, h.nout, h.gdone, hu, fun _ => congrArg (· + 1) hi, fun _ => congrArg (· + bit.toNat) hone, h.valid⟩
  · rw [e, pvBit_pass (hi ▸ hk) (hone ▸ hv)]
    exact ⟨h.run, h.nout, congrArg (· + 1) h.gdone, h.unpacked, fun _ => congrArg (· + 1) hi, fun _ => rfl, h.valid⟩
  · rw [e, pvBit_fail (hi ▸ hk) (hone ▸ hv)]
    exact ⟨rfl, h.nout, h.gdone, h.unpacked, nofun, nofun, fun _ => rfl⟩

theorem pvWalk_agrees {a b : Pv} (h : a.Agrees b) (p : Bool) (bits : List Bool) :
    (pvWalk p bits a).Agrees (pvWalk p bits b) := by
  induction bits generalizing a b with
  | nil => exact h
  | cons bit bits ih =>
    by_cases hr : a.run = .running
    · rw [pvWalk_cons hr, pvWalk_cons (h.run ▸ hr)]
      exact ih (pvBit_agrees h hr p bit)
    · rwa [pvWalk_stopped hr, pvWalk_stopped (h.run ▸ hr)]

theorem pvFinish_stopped {pv : Pv} (h : pv.run ≠ .running) : pvFinish pv = pv :=
  (pvFinish_cases pv).resolve_right fun hr => h hr.1

theorem pvFinish_running {pv : Pv} (h : pv.run = .running) :
    pvFinish pv = { pv with valid := true, run := .returned } := by
  simp [pvFinish, h]

theorem pvFinish_agrees {a b : Pv} (h : a.Agrees b) : (pvFinish a).Agrees (pvFinish b) := by
  by_cases hr : a.run = .running
  · rw [pvFinish_running hr, pvFinish_running (h.run ▸ hr)]
    exact ⟨rfl, h.nout, h.gdone, h.unpacked, nofun, nofun, fun _ => rfl⟩
  · rwa [pvFinish_stopped hr, pvFinish_stopped (h.run ▸ hr)]

theorem pvCheck_agrees (p : Bool) (data : List Byte) (a b : Pv) : (pvCheck p data a).Agrees (pvCheck p data b) :=
  pvFinish_agrees (pvWalk_agrees (pvStart_agrees data a b) p _)

/-- `PV.CHECK` on any registers gives the result R131 makes a function of the data and the parity sense. -/
theorem checkResult_eq (p : Bool) (data : List Byte) (pv : Pv) :
    checkResult p data = ((pvCheck p data pv).valid, (pvCheck p data pv).unpacked) :=
  have h := pvCheck_agrees p data pvReset pv
  Prod.ext (h.valid (pvCheck_run p data pvReset)) h.unpacked

/-! ### The records of the kinds Empty and ParityHex -/

/-- Settles O25: RESET_APP and REC.EMPTYDEC are the Empty record; the payload is read and the string is empty (R111). -/
theorem emptyRecordsAppend : Obligations.EmptyRecordsAppend :=
  fun c _ ts _ hp =>
    ⟨atHeader_recordDone hp (by decide) rfl c ts, atHeader_recordDone hp (by decide) rfl c ts⟩

/-- An instruction that runs a ParityHex record in `P_HDR` makes its entry from PV's result, which stays in PV's
registers, PV idle again (R114). -/
theorem atHeader_parityHex {s : State} (hp : s.phase = .hdr) (c len : Byte) (ts : Half) :
    ∃ t, atHeader s (recordBody .parityHex c len ts s) = .next t ∧
      RecordDone s t c len ts (parHexString (pvCheck s.cfg.parOdd (s.nextPayload len) s.pv)) ∧
      t.pv = { pvCheck s.cfg.parOdd (s.nextPayload len) s.pv with run := .idle } := by
  refine ⟨_, atHeader_of_hdr hp _, ?_⟩
  rcases recordBody_cases .parityHex c len ts s with ⟨hk, -⟩ | ⟨-, e⟩ | ⟨hk, -⟩
  · exact absurd rfl hk
  · rw [e, beforeDecode_payload]
    exact ⟨recordDone_emitEntry c len ts s _ _, rfl⟩
  · cases hk

/-- Settles O26: CODEC_RX_W_PARITY and REC.PARHEX are the ParityHex record, and PV's result in it is `checkResult`,
whatever PV's registers held. -/
theorem parityRecordsAppend : Obligations.ParityRecordsAppend := by
  intro c len ts s valid unpacked hp hcheck
  rw [checkResult_eq _ _ s.pv] at hcheck
  obtain ⟨rfl, rfl⟩ := Prod.mk.inj hcheck
  obtain ⟨t, hnext, hdone, hpv⟩ := atHeader_parityHex hp c len ts
  have hresult : t.pv.valid = (pvCheck s.cfg.parOdd (s.nextPayload len) s.pv).valid ∧
      t.pv.unpacked = (pvCheck s.cfg.parOdd (s.nextPayload len) s.pv).unpacked ∧ t.pv.run = .idle :=
    hpv ▸ ⟨rfl, rfl, rfl⟩
  exact ⟨⟨t, hnext, hdone, hresult⟩, ⟨t, hnext, hdone, hresult⟩⟩

end Sys2Proof.Machine

/-! ## The parity validator (spec/41_parity_validator.md) -/

namespace Sys2Proof.Machine

/-! ### The bits of a group, by place and by shifts (R133, R134, R141) -/

/-- Bit `k` of a group's data byte is the payload's bit at the group's place `k` (R133). -/
theorem groupData_getLsbD (data : List Byte) (g : Nat) {k : Nat} (hk : k < 8) :
    (groupData data g).getLsbD k = bitAt data (9 * g + k) := by
  rw [groupData, getLsbD_byteOfBits _ hk]
  simp [hk]

/-- The two bytes of R141 are inside the payload for every group that is. -/
theorem group_bytes_lt {n g : Nat} (h : g < groupCount n) : g + g / 8 + 1 < n := by
  simp only [groupCount] at h
  omega

/-- A group begins `g % 8` bits into byte `g + g / 8`, so its data bits up to there end in the next byte (R141). -/
theorem groupData_eq_closedData (data : List Byte) (g : Nat) : groupData data g = closedData data g := by
  refine BitVec.eq_of_getLsbD_eq fun k hk => ?_
  rw [groupData_getLsbD data g hk, closedData, BitVec.getLsbD_or, BitVec.getLsbD_ushiftRight, BitVec.getLsbD_shiftLeft,
    bitAt]
  by_cases hlow : g % 8 + k < 8
  · have hbyte : (9 * g + k) / 8 = g + g / 8 := by omega
    have hbit : (9 * g + k) % 8 = g % 8 + k := by omega
    have hnext : k < 8 - g % 8 := by omega
    simp [hbyte, hbit, hnext]
  · have hbyte : (9 * g + k) / 8 = g + g / 8 + 1 := by omega
    have hbit : (9 * g + k) % 8 = k - (8 - g % 8) := by omega
    have hnext : ¬ k < 8 - g % 8 := by omega
    have hout : 8 ≤ g % 8 + k := by omega
    rw [hbyte, hbit, BitVec.getLsbD_of_ge _ _ hout]
    simp [hk, hnext]

theorem groupParity_eq_closedParity (data : List Byte) (g : Nat) : groupParity data g = closedParity data g := by
  have hbyte : (9 * g + 8) / 8 = g + g / 8 + 1 := by omega
  have hbit : (9 * g + 8) % 8 = g % 8 := by omega
  rw [groupParity, closedParity, bitAt, hbyte, hbit]

/-- Settles O5: the walk's group by shifts. -/
theorem groupsByShifts : Obligations.GroupsByShifts := by
  intro data g hg
  refine ⟨group_bytes_lt hg, ?_⟩
  rw [decodeGroup, groupData_eq_closedData, groupParity_eq_closedParity]
  rfl

/-! ### One group through PV (R137, R138, R139) -/

/-- Data bits stored one after the other, all within one group: `pvDataBit` for a list (R138). -/
def pvDataBits (bits : List Bool) (pv : Pv) : Pv :=
  { pv with one := pv.one + (bits.map Bool.toNat).sum
            out := pv.out.modify (pv.i / 9) (fun o => o ||| (byteOfBits bits <<< (pv.i % 9)))
            i := pv.i + bits.length }

/-- The first of some bits stands one place below the rest of them (R54). -/
theorem byteOfBits_cons_shiftLeft (b : Bool) (bits : List Bool) (k : Nat) : byteOfBits (b :: bits) <<< k =
    ((if b then (1 : Byte) else 0) <<< k) ||| (byteOfBits bits <<< (k + 1)) := by
  rw [byteOfBits, BitVec.shiftLeft_or_distrib, Nat.add_comm k 1, BitVec.shiftLeft_add, BitVec.or_comm]

theorem pvDataBits_nil (pv : Pv) : pvDataBits [] pv = pv := by
  have hid : (fun o : Byte => o ||| (byteOfBits [] <<< (pv.i % 9))) = id := by
    funext o
    simp [byteOfBits]
  simp [pvDataBits, hid]

theorem pvDataBits_cons {pv : Pv} (b : Bool) (bits : List Bool) (h : pv.i % 9 < 8) :
    pvDataBits bits (pvDataBit b pv) = pvDataBits (b :: bits) pv := by
  have hgroup : (pv.i + 1) / 9 = pv.i / 9 := by omega
  have hplace : (pv.i + 1) % 9 = pv.i % 9 + 1 := by omega
  have hout : (fun o : Byte => o ||| (byteOfBits bits <<< (pv.i % 9 + 1))) ∘
        (fun o => o ||| ((if b then (1 : Byte) else 0) <<< (pv.i % 9))) =
      fun o => o ||| (byteOfBits (b :: bits) <<< (pv.i % 9)) := by
    funext o
    simp only [Function.comp, byteOfBits_cons_shiftLeft, BitVec.or_assoc]
  simp only [pvDataBits, pvDataBit, hgroup, hplace, List.modify_modify_eq, hout, List.map_cons, List.sum_cons,
    List.length_cons, Nat.add_assoc, Nat.add_comm 1]

/-- A walk that does not come to the group's parity bit stores its bits (R133, R138). -/
theorem pvWalk_dataBits (p : Bool) {bits : List Bool} {pv : Pv} (hr : pv.run = .running)
    (h : pv.i % 9 + bits.length ≤ 8) : pvWalk p bits pv = pvDataBits bits pv := by
  induction bits generalizing pv with
  | nil => exact (pvDataBits_nil pv).symm
  | cons b bits ih =>
    simp only [List.length_cons] at h
    have hrest : (pvDataBit b pv).i % 9 + bits.length ≤ 8 := by
      simp only [pvDataBit]
      omega
    rw [pvWalk_cons hr, pvBit_data p b (by omega), ih (pv := pvDataBit b pv) hr hrest, pvDataBits_cons b bits (by omega)]

/-- The data bits of a group that PV has still to take from its place in the group on. -/
def dataBitsLeft (d : Byte) (pv : Pv) : List Bool := ((List.range 8).map d.getLsbD).drop (pv.i % 9)

theorem dataBitsLeft_length (d : Byte) (pv : Pv) : (dataBitsLeft d pv).length = 8 - pv.i % 9 := by
  simp [dataBitsLeft]

/-- A group through a running PV: the data bits that are left of it, then its parity bit (R133). -/
theorem pvGroup_eq (p : Bool) (d : Byte) (b : Bool) {pv : Pv} (hr : pv.run = .running) :
    pvGroup p d b pv = pvParityBit p b (pvDataBits (dataBitsLeft d pv) pv) := by
  have hbits : (groupBitList d b).drop (pv.i % 9) = dataBitsLeft d pv ++ [b] := by
    rw [groupBitList, List.drop_append_of_le_length, dataBitsLeft]
    simp only [List.length_map, List.length_range]
    omega
  have hlen := dataBitsLeft_length d pv
  have hat : (pvDataBits (dataBitsLeft d pv) pv).i % 9 = 8 := by
    simp only [pvDataBits, hlen]
    omega
  have hrun : (pvDataBits (dataBitsLeft d pv) pv).run = .running := hr
  rw [pvGroup, hbits, pvWalk_append, pvWalk_dataBits p hr (by omega), pvWalk_cons hrun, pvBit, if_pos hat]
  rfl

/-- At the start of a group all eight data bits are left: together they are the data byte (R138). -/
theorem pvDataBits_start (d : Byte) {pv : Pv} (h : pv.i % 9 = 0) : pvDataBits (dataBitsLeft d pv) pv =
    { pv with one := pv.one + popcount8 d
              out := pv.out.modify (pv.i / 9) (fun o => o ||| d)
              i := pv.i + 8 } := by
  have hall : dataBitsLeft d pv = (List.range 8).map d.getLsbD := by rw [dataBitsLeft, h, List.drop_zero]
  have hone : (((List.range 8).map d.getLsbD).map Bool.toNat).sum = popcount8 d := by
    rw [List.map_map]
    rfl
  simp only [pvDataBits, hall, hone, h, byteOfBits_getLsbD, BitVec.shiftLeft_zero, List.length_map, List.length_range]

theorem isViolation_eq_false_iff {p b : Bool} {one : Nat} :
    isViolation p one b = false ↔ (one + b.toNat) % 2 = p.toNat := by
  simp [isViolation]

theorem isViolation_eq_true_iff {p b : Bool} {one : Nat} :
    isViolation p one b = true ↔ (one + b.toNat) % 2 ≠ p.toNat := by
  simp [isViolation]

theorem pvParityBit_pass {p b : Bool} {pv : Pv} (h : (pv.one + b.toNat) % 2 = p.toNat) :
    pvParityBit p b pv = { pv with one := 0, gdone := pv.gdone + 1, i := pv.i + 1 } := by
  simp [pvParityBit, isViolation_eq_false_iff.mpr h]

theorem pvParityBit_fail {p b : Bool} {pv : Pv} (h : (pv.one + b.toNat) % 2 ≠ p.toNat) :
    pvParityBit p b pv = { pv with valid := false, run := .returned } := by
  simp [pvParityBit, isViolation_eq_true_iff.mpr h]

section
variable {p b : Bool} {d : Byte} {pv : Pv} (hr : pv.run = .running) (hi : pv.i % 9 = 0) (hone : pv.one = 0)
include hr hi hone

/-- A whole group that passes (R137, R138). -/
theorem pvGroup_pass (h : (popcount8 d + b.toNat) % 2 = p.toNat) : pvGroup p d b pv =
    { pv with i := pv.i + 9
              out := pv.out.modify (pv.i / 9) (fun o => o ||| d)
              gdone := pv.gdone + 1 } := by
  rw [pvGroup_eq p d b hr, pvDataBits_start d hi, pvParityBit_pass (by simpa [hone] using h)]
  simp only [← hone]

/-- A whole group that fails (R138, R139). -/
theorem pvGroup_fail (h : (popcount8 d + b.toNat) % 2 ≠ p.toNat) : pvGroup p d b pv =
    { pv with i := pv.i + 8
              one := popcount8 d
              out := pv.out.modify (pv.i / 9) (fun o => o ||| d)
              valid := false
              run := .returned } := by
  rw [pvGroup_eq p d b hr, pvDataBits_start d hi, pvParityBit_fail (by simpa [hone] using h)]
  simp only [hone, Nat.zero_add]

end

/-- GRP9 where it is enabled (R147). -/
theorem exec_grp9 (d : Byte) (p : Bool) {s : State} (hp : s.phase = .dec) (hr : s.pv.run = .running)
    (hi : s.pv.i < 9 * s.pv.nout) :
    exec (.grp9 d p) s = .next { s with pv := pvGroup s.cfg.parOdd d p s.pv } :=
  atGroup_of_running hp hr hi _

/-- Settles O13: `pvGroup_pass` in the state. -/
theorem groupPasses : Obligations.GroupPasses := by
  intro d p s hp hr hi hstart hone hpar
  rw [exec_grp9 d p hp hr hi, pvGroup_pass hr hstart hone hpar]

/-- Settles O14: `pvGroup_fail` in the state. -/
theorem groupFails : Obligations.GroupFails := by
  intro d p s hp hr hi hstart hone hpar
  rw [exec_grp9 d p hp hr hi, pvGroup_fail hr hstart hone hpar]

/-- Settles O15: the data bits left change one output byte, and the parity bit passes or fails. -/
theorem groupFrame : Obligations.GroupFrame := by
  intro d p s hp hr hi
  refine ⟨pvGroup s.cfg.parOdd d p s.pv, exec_grp9 d p hp hr hi, ?_⟩
  rw [pvGroup_eq s.cfg.parOdd d p hr]
  have hlen := dataBitsLeft_length d s.pv
  have hat : (pvDataBits (dataBitsLeft d s.pv) s.pv).i = 9 * (s.pv.i / 9) + 8 := by
    simp only [pvDataBits, hlen]
    omega
  have hsize : (pvDataBits (dataBitsLeft d s.pv) s.pv).out.length = s.pv.out.length := List.length_modify ..
  have hother : ∀ g, g ≠ s.pv.i / 9 → (pvDataBits (dataBitsLeft d s.pv) s.pv).out.getD g 0 = s.pv.out.getD g 0 :=
    fun g hg => by simp [pvDataBits, List.getD_eq_getElem?_getD, List.getElem?_modify_ne, hg.symm]
  by_cases hpar : ((pvDataBits (dataBitsLeft d s.pv) s.pv).one + p.toNat) % 2 = s.cfg.parOdd.toNat
  · rw [pvParityBit_pass hpar]
    exact ⟨rfl, hsize, hother, Or.inl ⟨hr, congrArg (· + 1) hat, rfl, rfl, rfl⟩⟩
  · rw [pvParityBit_fail hpar]
    exact ⟨rfl, hsize, hother, Or.inr ⟨rfl, hat, rfl, rfl⟩⟩

/-! ### The bits `PV.CHECK` walks, group by group (R132, R133) -/

/-- The nine bits of group `g` of a payload. -/
def groupBits (data : List Byte) (g : Nat) : List Bool := groupBitList (groupData data g) (groupParity data g)

theorem groupBits_eq_map (data : List Byte) (g : Nat) :
    groupBits data g = (List.range' (9 * g) 9).map (bitAt data) := by
  have hdata : (List.range 8).map (groupData data g).getLsbD = (List.range 8).map (fun k => bitAt data (9 * g + k)) :=
    List.map_congr_left fun k hk => groupData_getLsbD data g (List.mem_range.mp hk)
  rw [groupBits, groupBitList, hdata]
  rfl

theorem map_bitAt_range' (data : List Byte) (g k : Nat) :
    (List.range' (9 * g) (9 * k)).map (bitAt data) = (List.range' g k).flatMap (groupBits data) := by
  induction k generalizing g with
  | zero => rfl
  | succ k ih =>
    rw [Nat.mul_succ, Nat.add_comm (9 * k) 9, ← List.range'_append_1, List.map_append, ← groupBits_eq_map,
      ← Nat.mul_succ, ih, List.range'_succ, List.flatMap_cons]

/-- `PV.CHECK` walks the groups of its input in order (R132, R133, R134). -/
theorem pvCheck_eq_walk_groups (p : Bool) (data : List Byte) (pv : Pv) : pvCheck p data pv =
    pvFinish (pvWalk p ((List.range' 0 (groupCount data.length)).flatMap (groupBits data)) (pvStart data pv)) := by
  rw [pvCheck, take_bitString, ← map_bitAt_range']
  rfl

/-- A one-byte input is answered by `PV.START` (R130). -/
theorem pvCheck_short {data : List Byte} (h : data.length = 1) (p : Bool) (pv : Pv) :
    pvCheck p data pv = { pv with out := overlay data pv.out, nout := 1, valid := true, gdone := 0, run := .returned } := by
  have hret : (pvStart data pv).run = .returned := by rw [pvStart_short h]
  rw [pvCheck, pvWalk_stopped (by simp [hret]), pvFinish_of_returned hret, pvStart_short h]

/-- From a group's start, the walk of its nine bits is PV's operation on the group (R137, R138). -/
theorem pvWalk_groupBits (p : Bool) (data : List Byte) (g : Nat) {pv : Pv} (h : pv.i % 9 = 0) :
    pvWalk p (groupBits data g) pv = pvGroup p (groupData data g) (groupParity data g) pv := by
  rw [pvGroup, h, List.drop_zero, groupBits]

/-! ### Group steps (R147, log 10) -/

/-- `s` comes to `t` in at most `k` steps of the machine. -/
def StepReaches (k : Nat) (s t : State) : Prop := ∃ n, n ≤ k ∧ Host.Core.run core n s = .next t

theorem StepReaches.refl (k : Nat) (s : State) : StepReaches k s s := ⟨0, Nat.zero_le k, rfl⟩

theorem StepReaches.head {k : Nat} {s t u : State} (h : step s = .next t) (h' : StepReaches k t u) :
    StepReaches (k + 1) s u := by
  obtain ⟨n, hn, hrun⟩ := h'
  refine ⟨n + 1, Nat.succ_le_succ hn, ?_⟩
  have hcore : core.step s = .next t := h
  simpa only [Host.Core.run, hcore] using hrun

/-- Settles O35: the arm of `stepDecode` for a running PV. -/
theorem stepRunsGroup : Obligations.StepRunsGroup := by
  intro s hl hp hr hi
  rw [step_of_dec hl hp, stepDecode, hr]
  exact if_pos hi

/-- A group step: PV's registers after the group it stands in (R147, log 10). -/
theorem step_group {s : State} (hl : s.cfg.legal = true) (hp : s.phase = .dec) (hr : s.pv.run = .running)
    (hi : s.pv.i < 9 * s.pv.nout) : step s = .next { s with
      pv := pvGroup s.cfg.parOdd (groupData s.payload (s.pv.i / 9)) (groupParity s.payload (s.pv.i / 9)) s.pv } := by
  rw [stepRunsGroup s hl hp hr hi]
  exact exec_grp9 _ _ hp hr hi

/-- `PV.FINISH` as a step (R140, R147). -/
theorem step_finish {s : State} (hl : s.cfg.legal = true) (hp : s.phase = .dec) (hr : s.pv.run = .running)
    (hi : ¬ s.pv.i < 9 * s.pv.nout) : step s = .next { s with pv := pvFinish s.pv } := by
  rw [step_of_dec hl hp, stepDecode, hr]
  exact if_neg hi

/-- A PV that runs at the start of a group with `k` groups left comes, a group a step, to what the walk of those groups
and `PV.FINISH` give as one action. -/
theorem groups_reach_walk (k : Nat) {s : State} (hl : s.cfg.legal = true) (hp : s.phase = .dec)
    (hr : s.pv.run = .running) {g : Nat} (hg : s.pv.i = 9 * g) (hk : g + k = s.pv.nout) :
    StepReaches (k + 1) s { s with
      pv := pvFinish (pvWalk s.cfg.parOdd ((List.range' g k).flatMap (groupBits s.payload)) s.pv) } := by
  induction k generalizing s g with
  | zero => exact (StepReaches.refl 0 _).head (step_finish hl hp hr (by omega))
  | succ k ih =>
    have hstep := step_group hl hp hr (by omega)
    have hplace : s.pv.i / 9 = g := by omega
    rw [hplace, ← pvWalk_groupBits _ _ _ (by omega)] at hstep
    refine StepReaches.head hstep ?_
    rw [List.range'_succ, List.flatMap_cons, pvWalk_append]
    by_cases hrun : (pvWalk s.cfg.parOdd (groupBits s.payload g) s.pv).run = .running
    · have hi := pvWalk_i hrun
      rw [groupBits, groupBitList_length] at hi
      exact ih (s := { s with pv := pvWalk s.cfg.parOdd (groupBits s.payload g) s.pv }) hl hp hrun
        (by simp only [groupBits, hi]; omega) (by simp only [pvWalk_nout]; omega)
    · rw [pvWalk_stopped hrun, pvFinish_stopped hrun]
      exact StepReaches.refl _ _

/-- Settles O16: from `PV.START`, the groups of the payload and `PV.FINISH`; a one-byte payload takes no step. -/
theorem groupStepsReachPvCheck : Obligations.GroupStepsReachPvCheck := by
  intro s pv hl hp hstart
  by_cases h1 : s.payload.length = 1
  · refine ⟨0, Nat.zero_le _, ?_⟩
    rw [pvCheck_short h1, ← pvStart_short h1, ← hstart]
    rfl
  · have hlong := hstart.trans (pvStart_long h1 pv)
    have hgroups : groupCount s.payload.length ≤ groupCount s.payN := by
      have hpay : s.payload.length ≤ s.payN := List.length_take_le _ _
      simp only [groupCount]
      omega
    obtain ⟨n, hn, hrun⟩ := groups_reach_walk (s := s) (groupCount s.payload.length) (g := 0) hl hp
      (by rw [hlong]) (by rw [hlong]) (by rw [hlong, Nat.zero_add])
    refine ⟨n, by omega, ?_⟩
    rw [pvCheck_eq_walk_groups, ← hstart]
    exact hrun

/-- Settles O43: the three arms of `stepDecode` around PV's walk. -/
theorem paritySteps : Obligations.ParitySteps := by
  intro s hl hp
  refine ⟨fun hr hk h1 => ?_, fun hr hi => ?_, fun hr => ?_⟩
  · have hstep : step s = .next { s with pv := pvStart s.payload s.pv } := by
      rw [step_of_dec hl hp, stepDecode, hr]
      simp only [decodePhase, hk]
    have hzeros : (pvStart s.payload s.pv).unpacked = List.replicate (8 * s.payload.length / 9) 0 := by
      rw [pvStart_long h1]
      exact take_overlay List.length_replicate _
    have hstart := pvStart_long h1 s.pv
    exact ⟨_, hstep, congrArg Pv.nout hstart, congrArg Pv.i hstart, congrArg Pv.one hstart, congrArg Pv.gdone hstart,
      hzeros, congrArg Pv.run hstart, rfl⟩
  · rw [step_finish hl hp hr (by omega), pvFinish_running hr]
  · have hstep : step s = .next (renderParity s) := by
      rw [step_of_dec hl hp, stepDecode, hr]
      rfl
    refine ⟨_, hstep, ?_⟩
    rw [renderParity_eq]
    exact ⟨rfl, storeString_decoded _ _, rfl, rfl, rfl, rfl⟩

/-- Settles O12: `PV.START` answers (R130). -/
theorem shortFramePassesThrough : Obligations.ShortFramePassesThrough := by
  intro p b pv
  rw [pvCheck_short rfl]
  exact ⟨overlay_take [b] pv.out, rfl, rfl, rfl⟩

/-- Settles O59: the bound is looked at and nothing else (D17). -/
theorem pvAloneBounded : Obligations.PvAloneBounded :=
  fun _ _ _ => ⟨fun h => if_pos h, fun h => if_neg (Nat.not_le.mpr h)⟩

/-! ### `PV.CHECK` by its groups (R144) -/

/-- The ones of a group, data bits and parity bit together (R137). -/
def groupOnes (data : List Byte) (g : Nat) : Nat := popcount8 (groupData data g) + (groupParity data g).toNat

theorem groupOk_iff {p : Bool} {data : List Byte} {g : Nat} :
    groupOk p data g = true ↔ groupOnes data g % 2 = p.toNat := by
  rw [groupOk, groupOnes, groupData_eq_closedData, groupParity_eq_closedParity, beq_iff_eq]

theorem groupOk_eq_false_iff {p : Bool} {data : List Byte} {g : Nat} :
    groupOk p data g = false ↔ groupOnes data g % 2 ≠ p.toNat := by
  rw [← Bool.not_eq_true, groupOk_iff]

/-- The `G` output bytes when the groups below `g` are unpacked (R135, R138). -/
def unpackedTo (data : List Byte) (g : Nat) : List Byte :=
  (List.range g).map (groupData data) ++ List.replicate (groupCount data.length - g) 0

theorem unpackedTo_length {data : List Byte} {g : Nat} (h : g ≤ groupCount data.length) :
    (unpackedTo data g).length = groupCount data.length := by
  simp [unpackedTo, h]

/-- A group's data byte goes into an output byte that was zero (R138). -/
theorem modify_unpackedTo {data : List Byte} {g : Nat} (h : g < groupCount data.length) (old : List Byte) :
    (overlay (unpackedTo data g) old).modify g (fun o => o ||| groupData data g) =
      overlay (unpackedTo data (g + 1)) old := by
  have hzeros : List.replicate (groupCount data.length - g) (0 : Byte) =
      0 :: List.replicate (groupCount data.length - (g + 1)) 0 := by
    rw [← List.replicate_succ]
    congr 1
    omega
  have hsplit : overlay (unpackedTo data g) old = (List.range g).map (groupData data) ++
      0 :: (List.replicate (groupCount data.length - (g + 1)) 0 ++ old.drop (groupCount data.length)) := by
    rw [overlay, unpackedTo_length (by omega), unpackedTo, hzeros, List.append_assoc, List.cons_append]
  have hlen : ((List.range g).map (groupData data)).length = g := by simp
  have hor : 0 ||| groupData data g = groupData data g := BitVec.zero_or
  rw [hsplit, List.modify_eq_take_drop, List.take_left' hlen, List.drop_left' hlen, List.modifyHead_cons,
    hor, overlay, unpackedTo_length (by omega), unpackedTo, List.range_succ, List.map_append]
  simp

/-- PV's registers at the start of group `g`, the groups below it passed; `pv` holds what was before `PV.START`. -/
def pvAt (data : List Byte) (g : Nat) (pv : Pv) : Pv :=
  { pv with i := 9 * g
            one := 0
            gdone := g
            nout := groupCount data.length
            out := overlay (unpackedTo data g) pv.out
            run := .running }

/-- PV's registers when it has returned at group `f` (R139). -/
def pvFailedAt (data : List Byte) (f : Nat) (pv : Pv) : Pv :=
  { pv with i := 9 * f + 8
            one := popcount8 (groupData data f)
            gdone := f
            nout := groupCount data.length
            out := overlay (unpackedTo data (f + 1)) pv.out
            valid := false
            run := .returned }

theorem pvStart_eq_pvAt {data : List Byte} (h : data.length ≠ 1) (pv : Pv) : pvStart data pv = pvAt data 0 pv :=
  pvStart_long h pv

/-- PV stands in its buffer where it stands in its groups. -/
theorem pvAt_modify_out {data : List Byte} {g : Nat} (h : g < groupCount data.length) (pv : Pv) :
    (pvAt data g pv).out.modify ((pvAt data g pv).i / 9) (fun o => o ||| groupData data g) =
      overlay (unpackedTo data (g + 1)) pv.out := by
  have hplace : (pvAt data g pv).i / 9 = g := Nat.mul_div_cancel_left g (by decide)
  rw [hplace]
  exact modify_unpackedTo h pv.out

section
variable {p : Bool} {data : List Byte} {g : Nat} (hg : g < groupCount data.length)
include hg

theorem pvWalk_group_pass (hok : groupOk p data g = true) (pv : Pv) :
    pvWalk p (groupBits data g) (pvAt data g pv) = pvAt data (g + 1) pv := by
  have hstart : (pvAt data g pv).i % 9 = 0 := Nat.mul_mod_right 9 g
  rw [pvWalk_groupBits _ _ _ hstart, pvGroup_pass rfl hstart rfl (groupOk_iff.mp hok), pvAt_modify_out hg]
  rfl

theorem pvWalk_group_fail (hbad : groupOk p data g = false) (pv : Pv) :
    pvWalk p (groupBits data g) (pvAt data g pv) = pvFailedAt data g pv := by
  have hstart : (pvAt data g pv).i % 9 = 0 := Nat.mul_mod_right 9 g
  rw [pvWalk_groupBits _ _ _ hstart, pvGroup_fail rfl hstart rfl (groupOk_eq_false_iff.mp hbad), pvAt_modify_out hg]
  rfl

end

/-- The walk of groups that pass, from `PV.START` on. -/
theorem pvWalk_groups_pass {p : Bool} {data : List Byte} {k : Nat} (hk : k ≤ groupCount data.length)
    (hok : ∀ g, g < k → groupOk p data g = true) (pv : Pv) :
    pvWalk p ((List.range' 0 k).flatMap (groupBits data)) (pvAt data 0 pv) = pvAt data k pv := by
  induction k with
  | zero => rfl
  | succ k ih =>
    rw [List.range'_1_concat, List.flatMap_append, List.flatMap_singleton, Nat.zero_add, pvWalk_append,
      ih (by omega) fun g hg => hok g (by omega)]
    exact pvWalk_group_pass hk (hok k (by omega)) pv

section
variable {p : Bool} {data : List Byte} (h1 : data.length ≠ 1) (pv : Pv)
include h1

/-- R140, R144: every group passes. -/
theorem pvCheck_of_all_ok (hok : ∀ g, g < groupCount data.length → groupOk p data g = true) : pvCheck p data pv =
    { pvAt data (groupCount data.length) pv with valid := true, run := .returned } := by
  rw [pvCheck_eq_walk_groups, pvStart_eq_pvAt h1, pvWalk_groups_pass le_rfl hok, pvFinish_running rfl]

/-- R139, R144: `f` is the least bad group. -/
theorem pvCheck_of_least_bad {f : Nat} (hf : f < groupCount data.length) (hbad : groupOk p data f = false)
    (hok : ∀ g, g < f → groupOk p data g = true) : pvCheck p data pv = pvFailedAt data f pv := by
  obtain ⟨k, hk⟩ : ∃ k, groupCount data.length = f + (k + 1) := ⟨groupCount data.length - (f + 1), by omega⟩
  rw [pvCheck_eq_walk_groups, pvStart_eq_pvAt h1, hk, ← List.range'_append_1, List.flatMap_append, pvWalk_append,
    pvWalk_groups_pass hf.le hok, Nat.zero_add, List.range'_succ, List.flatMap_cons, pvWalk_append,
    pvWalk_group_fail hf hbad, pvWalk_stopped (by simp [pvFailedAt]), pvFinish_of_returned rfl]

/-- What `PV.CHECK` can do with an input that is not one byte long (R144). -/
theorem pvCheck_cases (p : Bool) :
    ((∀ g, g < groupCount data.length → groupOk p data g = true) ∧
      pvCheck p data pv = { pvAt data (groupCount data.length) pv with valid := true, run := .returned }) ∨
    (∃ f, f < groupCount data.length ∧ groupOk p data f = false ∧ (∀ g, g < f → groupOk p data g = true) ∧
      pvCheck p data pv = pvFailedAt data f pv) := by
  by_cases hall : ∀ g, g < groupCount data.length → groupOk p data g = true
  · exact Or.inl ⟨hall, pvCheck_of_all_ok h1 pv hall⟩
  · have hex : ∃ f, f < groupCount data.length ∧ groupOk p data f = false := by simpa using hall
    obtain ⟨hf, hbad⟩ := Nat.find_spec hex
    have hok : ∀ g, g < Nat.find hex → groupOk p data g = true := fun g hg => by
      simpa [hg.trans hf] using Nat.find_min hex hg
    exact Or.inr ⟨Nat.find hex, hf, hbad, hok, pvCheck_of_least_bad h1 pv hf hbad hok⟩

end

theorem pvAt_unpacked (data : List Byte) (pv : Pv) (valid : Bool) (run : PvRun) :
    { pvAt data (groupCount data.length) pv with valid := valid, run := run }.unpacked =
      (List.range (groupCount data.length)).map (groupData data) := by
  have hall : unpackedTo data (groupCount data.length) = (List.range (groupCount data.length)).map (groupData data) := by
    simp [unpackedTo]
  rw [← hall]
  exact take_overlay (unpackedTo_length le_rfl) pv.out

theorem pvFailedAt_unpacked {data : List Byte} {f : Nat} (hf : f < groupCount data.length) (pv : Pv) :
    (pvFailedAt data f pv).unpacked = unpackedTo data (f + 1) :=
  take_overlay (unpackedTo_length hf) pv.out

/-- Settles O6: the registers of the two cases, the data bytes by shifts. -/
theorem pvCheckByLeastBadGroup : Obligations.PvCheckByLeastBadGroup := by
  intro p data pv h1
  refine ⟨fun hok => ?_, fun f hf hbad hok => ?_⟩
  · rw [pvCheck_of_all_ok h1 pv hok]
    refine ⟨rfl, ?_, rfl⟩
    rw [pvAt_unpacked, funext (groupData_eq_closedData data)]
  · rw [pvCheck_of_least_bad h1 pv hf hbad hok]
    refine ⟨rfl, ?_, rfl⟩
    rw [pvFailedAt_unpacked hf, unpackedTo, funext (groupData_eq_closedData data)]

/-! ### The two senses, the trailing bits, and what is true of every result (R143, R145, R146) -/

/-- Settles O9: the other sense turns every group's verdict, group 0's first of all. -/
theorem paritySensesExclude : Obligations.ParitySensesExclude := by
  intro p data pv pv'
  have hturn : ∀ g, groupOk (!p) data g = !groupOk p data g := fun g => by
    have hone := Nat.mod_two_eq_zero_or_one (popcount8 (closedData data g) + (closedParity data g).toNat)
    rcases hone with h | h <;> cases p <;> simp [groupOk, h]
  refine ⟨fun g => ?_, hturn, fun hG hvalid => ?_⟩
  · have hbit := (closedParity data g).toNat_le
    simp only [groupOk, beq_iff_eq, Bool.toNat_false]
    omega
  · have h1 : data.length ≠ 1 := fun h => by simp [h, groupCount] at hG
    rcases pvCheck_cases h1 pv p with ⟨hok, -⟩ | ⟨f, -, -, -, e⟩
    · have hbad : groupOk (!p) data 0 = false := by rw [hturn, hok 0 hG, Bool.not_true]
      rw [pvCheck_of_least_bad h1 pv' hG hbad nofun]
      exact ⟨rfl, rfl⟩
    · rw [e] at hvalid
      cases hvalid

/-- `PV.CHECK` reads the bits below `bitCount` only (R134, R143). -/
theorem pvCheck_congr {data data' : List Byte} (h1 : data.length ≠ 1) (hlen : data'.length = data.length)
    (hbits : ∀ i, i < bitCount data.length → bitAt data' i = bitAt data i) (p : Bool) (pv : Pv) :
    pvCheck p data' pv = pvCheck p data pv := by
  have hwalk : (bitString data').take (bitCount data'.length) = (bitString data).take (bitCount data.length) := by
    rw [take_bitString, take_bitString, hlen]
    exact List.map_congr_left fun i hi => hbits i (by simpa using hi)
  rw [pvCheck, hwalk, pvStart_long (hlen ▸ h1), hlen, ← pvStart_long h1, ← pvCheck]

/-- Settles O10: `pvCheck_congr`. -/
theorem trailingBitsIgnored : Obligations.TrailingBitsIgnored :=
  ⟨fun n => by simp only [bitCount]; exact Nat.div_add_mod (8 * n) 9,
    fun p _ _ pv h1 hlen hbits => pvCheck_congr h1 hlen hbits p pv⟩

/-- Payloads that agree on a group's nine bits have one group there (R133). -/
theorem group_congr {data data' : List Byte} {g : Nat}
    (h : ∀ k, k < 9 → bitAt data' (9 * g + k) = bitAt data (9 * g + k)) :
    groupData data' g = groupData data g ∧ groupParity data' g = groupParity data g := by
  refine ⟨BitVec.eq_of_getLsbD_eq fun k hk => ?_, h 8 (by decide)⟩
  rw [groupData_getLsbD _ _ hk, groupData_getLsbD _ _ hk, h k (by omega)]

/-- After a violation nothing above the failing group's parity bit has been read (R139, R145). -/
theorem pvCheck_congr_of_failed {p : Bool} {data data' : List Byte} {pv : Pv} (h1 : data.length ≠ 1)
    (hlen : data'.length = data.length) (hfail : (pvCheck p data pv).valid = false)
    (hbits : ∀ i, i ≤ 9 * (pvCheck p data pv).gdone + 8 → bitAt data' i = bitAt data i) :
    pvCheck p data' pv = pvCheck p data pv := by
  rcases pvCheck_cases h1 pv p with ⟨-, e⟩ | ⟨f, hf, hbad, hok, e⟩
  · rw [e] at hfail
    cases hfail
  · have hgroup : ∀ g, g ≤ f → groupData data' g = groupData data g ∧ groupParity data' g = groupParity data g :=
      fun g hg => group_congr fun k hk => hbits _ (by rw [e]; simp only [pvFailedAt]; omega)
    have hones : ∀ g, g ≤ f → groupOnes data' g = groupOnes data g := fun g hg => by
      obtain ⟨hd, hp⟩ := hgroup g hg
      rw [groupOnes, hd, hp, groupOnes]
    have hbad' : groupOk p data' f = false := by
      rwa [groupOk_eq_false_iff, hones f le_rfl, ← groupOk_eq_false_iff]
    have hok' : ∀ g, g < f → groupOk p data' g = true := fun g hg => by
      rw [groupOk_iff, hones g hg.le]
      exact groupOk_iff.mp (hok g hg)
    have hunpacked : unpackedTo data' (f + 1) = unpackedTo data (f + 1) := by
      rw [unpackedTo, unpackedTo, hlen]
      congr 1
      exact List.map_congr_left fun g hg => (hgroup g (by have := List.mem_range.mp hg; omega)).1
    rw [e, pvCheck_of_least_bad (hlen ▸ h1) pv (hlen ▸ hf) hbad' hok', pvFailedAt, hunpacked, (hgroup f le_rfl).1, hlen]
    rfl

/-- Settles O11: the length by `checkResult_length`, the rest by `pvCheck_cases` and the two congruences. -/
theorem pvResultFacts : Obligations.PvResultFacts := by
  intro p data pv
  refine ⟨?_, fun hle => ?_, fun h1 hvalid => ?_, fun data' h1 hlen hbits => ?_,
    fun data' h1 hlen hfail hbits => pvCheck_congr_of_failed h1 hlen hfail hbits⟩
  · have hlen := checkResult_length p data
    rwa [checkResult_eq p data pv] at hlen
  · by_cases h1 : data.length = 1
    · rw [pvCheck_short h1]
    · have hG : groupCount data.length = 0 := by
        simp only [groupCount]
        omega
      rw [pvCheck_of_all_ok h1 pv fun g hg => by omega]
  · rcases pvCheck_cases h1 pv p with ⟨hok, -⟩ | ⟨f, -, -, -, e⟩
    · exact hok
    · rw [e] at hvalid
      cases hvalid
  · rw [pvCheck_congr h1 hlen hbits]
    exact ⟨rfl, rfl⟩

/-! ### PACK (R150, R151) -/

/-- Each packed group has nine bits, so group `g`'s stand at `9 * g` (R150). -/
theorem packBits_getD (p : Bool) {d : List Byte} {g k : Nat} (hg : g < d.length) (hk : k < 9) :
    (packBits p d).getD (9 * g + k) false = (groupBitList d[g] (parityBitFor p d[g])).getD k false := by
  induction d generalizing g with
  | nil => cases hg
  | cons b d ih =>
    rw [packBits, List.flatMap_cons]
    cases g with
    | zero =>
      rw [List.getD_append _ _ _ _ (by simpa using hk), Nat.mul_zero, Nat.zero_add]
      rfl
    | succ g =>
      have hplace : 9 * (g + 1) + k - 9 = 9 * g + k := by omega
      rw [List.getD_append_right _ _ _ _ (by rw [groupBitList_length]; omega), groupBitList_length, hplace]
      exact ih (by simpa using hg)

theorem pack_length (p : Bool) (d : List Byte) : (pack p d).length = (9 * d.length + 7) / 8 := by
  simp [pack]

/-- The packed bytes hold the groups' bits and fewer than eight more. -/
theorem groupCount_pack (p : Bool) (d : List Byte) : groupCount (pack p d).length = d.length := by
  rw [pack_length, groupCount]
  omega

theorem pack_length_ne_one (p : Bool) (d : List Byte) : (pack p d).length ≠ 1 := by
  rw [pack_length]
  omega

/-- Packing lays the bits out in order (R54, R150). -/
theorem bitAt_pack (p : Bool) {d : List Byte} {i : Nat} (hi : i < 9 * d.length) :
    bitAt (pack p d) i = (packBits p d).getD i false := by
  have hbyte : i / 8 < (9 * d.length + 7) / 8 := by omega
  have hbit : i % 8 < 8 := Nat.mod_lt i (by decide)
  have hplace : 8 * (i / 8) + i % 8 = i := Nat.div_add_mod i 8
  have hget : (pack p d).getD (i / 8) 0 = byteOfString (packBits p d) (i / 8) := by
    simp [pack, List.getD_eq_getElem?_getD, hbyte]
  rw [bitAt, hget, byteOfString, getLsbD_byteOfBits _ hbit]
  simp [List.getD_eq_getElem?_getD, hbit, hplace]

/-- Group `g` of the packed string is data byte `g` with its parity bit (R150). -/
theorem group_pack (p : Bool) {d : List Byte} {g : Nat} (hg : g < d.length) :
    groupData (pack p d) g = d[g] ∧ groupParity (pack p d) g = parityBitFor p d[g] := by
  have hbit : ∀ k, k < 9 →
      bitAt (pack p d) (9 * g + k) = (groupBitList d[g] (parityBitFor p d[g])).getD k false :=
    fun k hk => (bitAt_pack p (by omega)).trans (packBits_getD p hg hk)
  refine ⟨BitVec.eq_of_getLsbD_eq fun k hk => ?_, (hbit 8 (by decide)).trans rfl⟩
  rw [groupData_getLsbD _ _ hk, hbit k (by omega), groupBitList, List.getD_append _ _ _ _ (by simpa using hk)]
  simp [hk]

/-- The parity bit of R150 makes its group pass (R137). -/
theorem parityBitFor_passes (p : Bool) (b : Byte) : (popcount8 b + (parityBitFor p b).toNat) % 2 = p.toNat := by
  rcases Nat.mod_two_eq_zero_or_one (popcount8 b) with h | h <;> cases p <;> simp [parityBitFor, Nat.add_mod, h]

theorem groupOk_pack (p : Bool) {d : List Byte} {g : Nat} (hg : g < d.length) : groupOk p (pack p d) g = true := by
  obtain ⟨hdata, hparity⟩ := group_pack p hg
  rw [groupOk_iff, groupOnes, hdata, hparity]
  exact parityBitFor_passes p d[g]

/-- A payload whose first groups have the data bytes of `d` gives these back. -/
theorem map_groupData_eq_take {data d : List Byte} {n : Nat} (hn : n ≤ d.length)
    (h : ∀ g (hg : g < d.length), g < n → groupData data g = d[g]) : (List.range n).map (groupData data) = d.take n := by
  refine List.ext_getElem (by simpa using hn) fun g hg hg' => ?_
  simp only [List.getElem_map, List.getElem_range, List.getElem_take]
  exact h g _ (by simpa using hg)

/-- Settles O7: every packed group passes and holds its data byte. -/
theorem packThenCheck : Obligations.PackThenCheck := by
  intro p d pv
  have hG := groupCount_pack p d
  have hcheck := pvCheck_of_all_ok (pack_length_ne_one p d) pv fun g hg => groupOk_pack p (hG ▸ hg)
  refine ⟨by rw [hcheck], ?_, pack_length p d, pack_length_ne_one p d, hG⟩
  rw [hcheck, pvAt_unpacked, hG, map_groupData_eq_take le_rfl fun g hg _ => (group_pack p hg).1, List.take_length]

/-! ### Flipped bits (R152) -/

@[simp] theorem flipBit_length (data : List Byte) (i : Nat) : (flipBit data i).length = data.length := by
  simp [flipBit]

theorem one_shiftLeft_getLsbD {k : Nat} (hk : k < 8) (j : Nat) : ((1 : Byte) <<< k).getLsbD j = decide (k = j) := by
  have hpow : (1 : Byte) <<< k = BitVec.twoPow 8 k := (BitVec.twoPow_eq 8 k).symm
  rw [hpow, BitVec.getLsbD_twoPow]
  simp [hk]

/-- A flip changes the one bit at its place (R152). -/
theorem bitAt_flipBit {data : List Byte} {i : Nat} (hi : i < 8 * data.length) (j : Nat) :
    bitAt (flipBit data i) j = (bitAt data j ^^ decide (i = j)) := by
  have hbyte : i / 8 < data.length := by omega
  have hbit : j % 8 < 8 := Nat.mod_lt j (by decide)
  by_cases hsame : i / 8 = j / 8
  · have hget : (flipBit data i).getD (j / 8) 0 = data.getD (j / 8) 0 ^^^ ((1 : Byte) <<< (i % 8)) := by
      rw [← hsame]
      simp [flipBit, List.getD_eq_getElem?_getD, hbyte]
    have hplace : i % 8 = j % 8 ↔ i = j := by omega
    rw [bitAt, hget, BitVec.getLsbD_xor, one_shiftLeft_getLsbD (Nat.mod_lt i (by decide)), ← bitAt]
    simp only [hplace]
  · have hne : i ≠ j := fun h => hsame (by rw [h])
    have hget : (flipBit data i).getD (j / 8) 0 = data.getD (j / 8) 0 := by
      simp [flipBit, List.getD_eq_getElem?_getD, List.getElem?_modify_ne, hsame]
    rw [bitAt, hget, ← bitAt]
    simp [hne]

/-- One of some bits flipped turns the parity of their number. -/
theorem sum_toNat_flip (f : Nat → Bool) (i c n : Nat) :
    ((List.range n).map (fun k => (f k ^^ decide (i = c + k)).toNat)).sum % 2 =
      (((List.range n).map (fun k => (f k).toNat)).sum + if c ≤ i ∧ i < c + n then 1 else 0) % 2 := by
  induction n with
  | zero =>
    have hnone : ¬ (c ≤ i ∧ i < c + 0) := by omega
    rw [if_neg hnone]
    rfl
  | succ n ih =>
    simp only [List.range_succ, List.map_append, List.sum_append, List.map_singleton, List.sum_singleton]
    by_cases hlast : i = c + n
    · have hbefore : ¬ (c ≤ i ∧ i < c + n) := by omega
      have hnow : c ≤ i ∧ i < c + (n + 1) := by omega
      rw [if_neg hbefore] at ih
      rw [if_pos hnow, decide_eq_true hlast]
      cases f n <;> simp only [Bool.xor_true, Bool.not_true, Bool.not_false, Bool.toNat_true, Bool.toNat_false] <;> omega
    · have hiff : (c ≤ i ∧ i < c + (n + 1)) ↔ (c ≤ i ∧ i < c + n) := by omega
      simp only [hiff, decide_eq_false hlast, Bool.xor_false]
      omega

theorem groupOnes_eq_sum (data : List Byte) (g : Nat) :
    groupOnes data g = ((List.range 9).map (fun k => (bitAt data (9 * g + k)).toNat)).sum := by
  have hdata : popcount8 (groupData data g) = ((List.range 8).map (fun k => (bitAt data (9 * g + k)).toNat)).sum := by
    rw [popcount8]
    congr 1
    exact List.map_congr_left fun k hk => congrArg Bool.toNat (groupData_getLsbD data g (List.mem_range.mp hk))
  have hlast : List.range 9 = List.range 8 ++ [8] := rfl
  rw [groupOnes, hdata, hlast, List.map_append, List.sum_append]
  rfl

/-- A flip turns the parity of its own group and of no other. -/
theorem groupOnes_flipBit {data : List Byte} {i : Nat} (hi : i < 8 * data.length) (g : Nat) :
    groupOnes (flipBit data i) g % 2 = (groupOnes data g + if i / 9 = g then 1 else 0) % 2 := by
  have hgroup : (9 * g ≤ i ∧ i < 9 * g + 9) ↔ i / 9 = g := by omega
  have hsum := sum_toNat_flip (fun k => bitAt data (9 * g + k)) i (9 * g) 9
  rw [groupOnes_eq_sum, groupOnes_eq_sum]
  simpa only [bitAt_flipBit hi, hgroup] using hsum

/-- A flip outside a group's data bits leaves its data byte. -/
theorem groupData_flipBit_of_ne {data : List Byte} {i g : Nat} (hi : i < 8 * data.length)
    (hne : i < 9 * g ∨ 9 * g + 8 ≤ i) : groupData (flipBit data i) g = groupData data g := by
  refine BitVec.eq_of_getLsbD_eq fun k hk => ?_
  have hother : i ≠ 9 * g + k := by omega
  rw [groupData_getLsbD _ _ hk, groupData_getLsbD _ _ hk, bitAt_flipBit hi]
  simp [hother]

/-- A flipped data bit is flipped in the data byte (R152). -/
theorem groupData_flipBit {data : List Byte} {g k : Nat} (hk : k < 8) (hi : 9 * g + k < 8 * data.length) :
    groupData (flipBit data (9 * g + k)) g = groupData data g ^^^ ((1 : Byte) <<< k) := by
  refine BitVec.eq_of_getLsbD_eq fun j hj => ?_
  rw [groupData_getLsbD _ _ hj, bitAt_flipBit hi, BitVec.getLsbD_xor, groupData_getLsbD _ _ hj,
    one_shiftLeft_getLsbD hk]
  simp

section
variable {p : Bool} {d : List Byte} {g : Nat} (hg : g < d.length)
include hg

/-- The bits of the packed groups are inside the packed string. -/
theorem groupBit_lt_pack {k : Nat} (hk : k ≤ 8) : 9 * g + k < 8 * (pack p d).length := by
  rw [pack_length]
  omega

/-- One flipped bit of group `g` of a packed string makes `g` the least bad group (R152). -/
theorem pvCheck_flip_pack {k : Nat} (hk : k ≤ 8) (pv : Pv) :
    pvCheck p (flipBit (pack p d) (9 * g + k)) pv = pvFailedAt (flipBit (pack p d) (9 * g + k)) g pv := by
  have hones := groupOnes_flipBit (groupBit_lt_pack (p := p) hg hk)
  have hplace : (9 * g + k) / 9 = g := by omega
  refine pvCheck_of_least_bad ?_ pv ?_ ?_ fun j hj => ?_
  · rw [flipBit_length]
    exact pack_length_ne_one p d
  · rwa [flipBit_length, groupCount_pack]
  · have hpass := groupOk_iff.mp (groupOk_pack p hg)
    have hturn := hones g
    rw [if_pos hplace] at hturn
    rw [groupOk_eq_false_iff]
    omega
  · have hpass := groupOk_iff.mp (groupOk_pack p (hj.trans hg))
    rw [groupOk_iff, hones j, if_neg (by omega), Nat.add_zero, hpass]

/-- What is unpacked then: the data bytes below `g`, group `g`'s own, and zeros (R139). -/
theorem flip_pack_unpacked {k : Nat} (hk : k ≤ 8) (pv : Pv) :
    (pvCheck p (flipBit (pack p d) (9 * g + k)) pv).unpacked =
      d.take g ++ [groupData (flipBit (pack p d) (9 * g + k)) g] ++ List.replicate (d.length - (g + 1)) 0 := by
  have hbelow : (List.range g).map (groupData (flipBit (pack p d) (9 * g + k))) = d.take g :=
    map_groupData_eq_take hg.le fun j hj hjg => by
      rw [groupData_flipBit_of_ne (groupBit_lt_pack hg hk) (by omega), (group_pack p hj).1]
  have hG : groupCount (flipBit (pack p d) (9 * g + k)).length = d.length := by rw [flipBit_length, groupCount_pack]
  rw [pvCheck_flip_pack hg hk, pvFailedAt_unpacked (hG ▸ hg), unpackedTo, hG, List.range_succ, List.map_append, hbelow,
    List.map_singleton]

/-- Two flipped bits of one group are not seen (R152). -/
theorem pvCheck_two_flips {k l : Nat} (hk : k ≤ 8) (hl : l ≤ 8) (pv : Pv) :
    (pvCheck p (flipBit (flipBit (pack p d) (9 * g + k)) (9 * g + l)) pv).valid = true := by
  have hfirst := groupOnes_flipBit (groupBit_lt_pack (p := p) hg hk)
  have hsecond := groupOnes_flipBit (data := flipBit (pack p d) (9 * g + k)) (i := 9 * g + l)
    (by rw [flipBit_length]; exact groupBit_lt_pack hg hl)
  have hplace : (9 * g + l) / 9 = (9 * g + k) / 9 := by omega
  have hok : ∀ j, j < d.length → groupOk p (flipBit (flipBit (pack p d) (9 * g + k)) (9 * g + l)) j = true :=
    fun j hj => by
      have hpass := groupOk_iff.mp (groupOk_pack p hj)
      have h1 := hfirst j
      have h2 := hsecond j
      rw [hplace] at h2
      rw [groupOk_iff]
      omega
  have hlen : (flipBit (flipBit (pack p d) (9 * g + k)) (9 * g + l)).length = (pack p d).length := by
    rw [flipBit_length, flipBit_length]
  rw [pvCheck_of_all_ok (hlen ▸ pack_length_ne_one p d) pv fun j hj => hok j (by rwa [hlen, groupCount_pack] at hj)]

end

/-- An invalid payload's string ends with the marker (R114). -/
theorem decParHex_of_invalid {p : Bool} {data : List Byte} {pv : Pv} (h : (pvCheck p data pv).valid = false) :
    decParHex p data = .str (hex (pvCheck p data pv).unpacked ++ [0x21]) := by
  rw [decParHex, checkResult_eq p data pv, h]
  rfl

/-- Settles O8: the group of the flip is the least bad one; a flip of the parity bit leaves the data byte. -/
theorem singleFlipCaught : Obligations.SingleFlipCaught := by
  intro p d g hg pv
  have hfailed : ∀ k, k ≤ 8 → (pvCheck p (flipBit (pack p d) (9 * g + k)) pv).valid = false ∧
      (pvCheck p (flipBit (pack p d) (9 * g + k)) pv).gdone = g := fun k hk => by
    rw [pvCheck_flip_pack hg hk]
    exact ⟨rfl, rfl⟩
  obtain ⟨hvalid, hgdone⟩ := hfailed 8 le_rfl
  refine ⟨hvalid, hgdone, ?_, ⟨_, decParHex_of_invalid hvalid⟩, fun k hk => ?_, fun k l hkl hl =>
    pvCheck_two_flips hg (by omega) hl pv⟩
  · rw [flip_pack_unpacked hg le_rfl, groupData_flipBit_of_ne (groupBit_lt_pack hg le_rfl) (Or.inr le_rfl),
      (group_pack p hg).1, ← List.take_concat_get' d g hg]
  · obtain ⟨hvalid, hgdone⟩ := hfailed k hk.le
    refine ⟨hvalid, hgdone, ?_⟩
    rw [flip_pack_unpacked hg hk.le, groupData_flipBit hk (groupBit_lt_pack hg hk.le), (group_pack p hg).1]

end Sys2Proof.Machine

/-! ## The record reader (spec/42_record_reader.md R170 to R178, spec/43_log_decoder.md R197) -/

namespace Sys2Proof.Machine

/-! ### The tests at a header, and how far a read moves `pos` -/

theorem isShort_iff {s : State} : isShort s = true ↔ s.stream.size - s.pos < 4 := decide_eq_true_iff

theorem isSentinel_iff_name {d : Descriptor} : d.isSentinel = true ↔ d.name = nameEmpty := beq_iff_eq

theorem after_of_le {m : Memory} {pos n : Nat} (h : pos + n ≤ m.size) : m.after pos n = pos + n := Nat.min_eq_left h

/-- `pos` moves by the number of bytes read (R55). -/
theorem after_eq_add_min {m : Memory} {pos : Nat} (h : pos ≤ m.size) (n : Nat) :
    m.after pos n = pos + min n (m.size - pos) := by
  simp only [Memory.after]
  omega

/-- A timestamp's bytes stand high byte first (R53). -/
theorem tsOfBytes_toNat (hi lo : Byte) : (tsOfBytes hi lo).toNat = hi.toNat * 256 + lo.toNat := by
  rw [tsOfBytes, BitVec.toNat_append, ← Nat.shiftLeft_add_eq_or_of_lt lo.isLt, Nat.shiftLeft_eq]

/-- The header at `pos` latched, its fields from the stream (R92, R172). -/
abbrev latchAt (ph : Phase) (s : State) : State :=
  latchHeader (headerCode s.stream s.pos) (headerLen s.stream s.pos) (headerTs s.stream s.pos) ph s

/-! ### The three answers of `RR.NEXT`, and the header that ends the stream -/

theorem rrNext_at_short {s : State} (h : s.stream.size - s.pos < 4) : rrNext s = .endOfStream (endShort s) := by
  rw [rrNext, if_pos (isShort_iff.mpr h)]

theorem ldStep_at_short {s : State} (h : s.stream.size - s.pos < 4) : ldStep s = endShort s := by
  rw [ldStep, rrNext_at_short h]

theorem step_at_short {s : State} (hl : s.cfg.legal = true) (hp : s.phase = .hdr) (h : s.stream.size - s.pos < 4) :
    step s = .next (endShort s) := by
  rw [step_of_hdr hl hp]
  rcases stepRecord_cases hp with ⟨-, e⟩ | ⟨hw, -, -⟩ | ⟨hw, -, -⟩
  · exact e
  · exact absurd h hw
  · exact absurd h hw

/-- Settles O39: `step_at_short`, with `endShort` written out. -/
theorem shortHeaderEnds : Obligations.ShortHeaderEnds := fun _ hl hp h => step_at_short hl hp h

/-- Settles O20: EMPTY latches its header and nothing else. -/
theorem sentinelEnds : Obligations.SentinelEnds := fun _ _ _ _ hp => atHeader_of_hdr hp _

section
variable {s : State} (h : s.pos + 4 ≤ s.stream.size)
include h

theorem not_isShort : ¬ isShort s = true := fun hshort => by
  have := isShort_iff.mp hshort
  omega

/-- A whole header's micro step latches it; the name decides the phase (R172, R173). -/
theorem headerPhase_of_whole :
    headerPhase s = latchAt (if isSentinel s (headerCode s.stream s.pos) then .done else .pay) s := by
  rw [headerPhase, if_neg (not_isShort h)]

theorem rrNext_at_record (hs : (s.cfg.registry.lookup (headerCode s.stream s.pos)).isSentinel = false) :
    rrNext s = .record (readPayload (latchAt .pay s)) := by
  rw [rrNext, if_neg (not_isShort h), isSentinel, hs]
  rfl

section
variable (hs : (s.cfg.registry.lookup (headerCode s.stream s.pos)).isSentinel = true)
include hs

theorem rrNext_at_sentinel : rrNext s = .endOfStream (latchAt .done s) := by
  rw [rrNext, if_neg (not_isShort h), isSentinel, if_pos hs]

theorem ldStep_at_sentinel : ldStep s = latchAt .done s := by
  rw [ldStep, rrNext_at_sentinel h hs]

theorem step_at_sentinel (hl : s.cfg.legal = true) (hp : s.phase = .hdr) : step s = .next (latchAt .done s) := by
  rw [step_of_hdr hl hp]
  rcases stepRecord_cases hp with ⟨hshort, -⟩ | ⟨-, -, e⟩ | ⟨-, hn, -⟩
  · omega
  · exact e
  · exact absurd (hn.symm.trans hs) (by decide)

end

end

/-- Settles O21: the step is the sentinel header latched, with `P_DONE` for its phase. -/
theorem stepAtSentinel : Obligations.StepAtSentinel := fun s hl hp h hs =>
  ⟨latchAt .done s, step_at_sentinel h (isSentinel_iff_name.mpr hs) hl hp, rfl, after_of_le h,
    rfl, rfl, rfl, rfl, rfl, rfl, rfl, rfl, rfl, rfl⟩

/-- Settles O40: the micro step is `latchHeader` at four bytes that are all there. -/
theorem headerLatched : Obligations.HeaderLatched := by
  intro s hl hp h
  refine ⟨_, (microStep_of_hdr hl hp).trans (congrArg _ (headerPhase_of_whole h)),
    rfl, rfl, tsOfBytes_toNat _ _, after_of_le h, ?_, rfl⟩
  rw [latchHeader_phase]
  exact if_congr isSentinel_iff_name rfl rfl

/-! ### The payload -/

/-- Settles O41: `readPayload` is one read of the stream, laid into the buffer. -/
theorem payloadRead : Obligations.PayloadRead := by
  intro s hl hp hpos
  have hn : (readPayload s).payN = min s.len.toNat (s.stream.size - s.pos) := read_length ..
  refine ⟨readPayload s, by simp [step, hl, hp, payloadPhase], hn, ?_, fun j hj => ?_, ?_, rfl, rfl⟩
  · rw [readPayload_payload, readPayload_payN]
  · have hj' : j < (s.stream.read s.pos s.len.toNat).length := hj
    rw [readPayload_payload, List.getD_eq_getElem _ _ hj', read_getElem]
  · rw [hn]
    exact after_eq_add_min hpos _

/-! ### What a record can come to -/

/-- A record makes its entry, or it records a text fault and makes none (R191, R192). -/
theorem recordBody_done_or_faulted (kind : DecoderKind) (c len : Byte) (ts : Half) (s : State) :
    (∃ data, RecordDone s (recordBody kind c len ts s) c len ts data) ∨
    ((recordBody kind c len ts s).phase = .faulted ∧ (recordBody kind c len ts s).entries = s.entries) := by
  rcases recordBody_forms kind c len ts s with ⟨str, pv, e, -⟩ | ⟨-, -, e⟩ <;> rw [e]
  · exact Or.inl ⟨str, recordDone_emitEntry c len ts s str pv⟩
  · exact Or.inr ⟨rfl, rfl⟩

/-- A step that comes back to `P_HDR` has made a record's entry (R190, R192). -/
theorem recordDone_of_step {s t : State} (hp : s.phase = .hdr) (h : step s = .next t) (ht : t.phase = .hdr) :
    ∃ data, RecordDone s t (headerCode s.stream s.pos) (headerLen s.stream s.pos) (headerTs s.stream s.pos) data := by
  rw [step_of_hdr (step_cases h).1 hp] at h
  rcases stepRecord_cases hp with ⟨-, e⟩ | ⟨-, -, e⟩ | ⟨-, -, e⟩ <;> rw [e] at h <;> cases h
  · cases ht
  · cases ht
  · rcases recordBody_done_or_faulted _ _ _ _ s with hd | ⟨hf, -⟩
    · exact hd
    · exact absurd (hf.symm.trans ht) (by decide)

/-- Settles O56: the record has read to the end of the stream, so the next header is short. -/
theorem truncatedRecordLooksWhole : Obligations.TruncatedRecordLooksWhole := by
  intro s t hl hp hw hcut hstep ht
  obtain ⟨data, hd⟩ := recordDone_of_step hp hstep ht
  rw [← headerLen] at hcut ⊢
  have hpayN : t.payN = s.stream.size - (s.pos + 4) := by
    rw [hd.payN, State.nextPayload, read_length]
    omega
  have hpos : t.pos = t.stream.size := by
    rw [hd.pos, hd.stream, State.nextPos]
    omega
  refine ⟨hpayN, by rw [hpayN, hd.len]; omega, by simp [hd.entries], ?_⟩
  rw [step_at_short (hd.cfg ▸ hl) ht (by omega), endShort, ← hpos]

/-! ### Runs -/

/-- What one `LD.STEP` from `P_HDR` does for a run: it ends the run with no entry, or it makes one entry and has read
a header at least (R197). -/
theorem ldStep_ends_or_reads (s : State) :
    ((ldStep s).phase.terminal = true ∧ (ldStep s).entries = s.entries) ∨
    ((ldStep s).phase = .hdr ∧ (ldStep s).stream = s.stream ∧ s.pos + 4 ≤ s.stream.size ∧
      s.pos + 4 ≤ (ldStep s).pos ∧ (ldStep s).entries.length = s.entries.length + 1) := by
  rcases ldStep_cases s with ⟨-, e⟩ | ⟨-, -, e⟩ | ⟨hw, -, e⟩ <;> rw [e]
  · exact Or.inl ⟨rfl, rfl⟩
  · exact Or.inl ⟨rfl, rfl⟩
  · rcases recordBody_done_or_faulted _ _ _ _ s with ⟨data, hd⟩ | ⟨hf, he⟩
    · refine Or.inr ⟨hd.phase, hd.stream, by omega, ?_, by simp [hd.entries]⟩
      rw [hd.pos, State.nextPos]
      omega
    · exact Or.inl ⟨by rw [hf]; rfl, he⟩

/-- No `LD.STEP` takes `pos` back (R197). -/
theorem ldStep_pos_le {s : State} (h : s.pos ≤ s.stream.size) : s.pos ≤ (ldStep s).pos := by
  obtain ⟨hle, hin⟩ := after_bounds h 4
  rcases ldStep_cases s with ⟨-, e⟩ | ⟨-, -, e⟩ | ⟨-, -, e⟩ <;> rw [e]
  · exact h
  · exact hle
  · rw [recordBody_pos]
    exact hle.trans (after_bounds hin _).1

/-- A run whose number of calls is more than the headers the stream can still hold ends, with one entry a header at
most (R197). -/
theorem ldRun_ends {k : Nat} {s : State} (hp : s.phase = .hdr) (hk : (s.stream.size - s.pos) / 4 < k) :
    (ldRun k s).phase.terminal = true ∧
      (ldRun k s).entries.length ≤ s.entries.length + (s.stream.size - s.pos) / 4 := by
  induction k generalizing s with
  | zero => omega
  | succ k ih =>
    rw [ldRun_succ (by rw [hp]; rfl)]
    rcases ldStep_ends_or_reads s with ⟨ht, he⟩ | ⟨hp', hstream, hw, hpos, he⟩
    · rw [ldRun_of_terminal ht, he]
      exact ⟨ht, Nat.le_add_right _ _⟩
    · obtain ⟨hend, hlen⟩ := ih hp' (by rw [hstream]; omega)
      rw [hstream] at hlen
      exact ⟨hend, by omega⟩

/-- Settles O53: the stream holds at most `floor(len(S)/4)` headers from any `pos` on. -/
theorem runEnds : Obligations.RunEnds := by
  intro s hp
  have hle : (s.stream.size - s.pos) / 4 ≤ s.stream.size / 4 := Nat.div_le_div_right (Nat.sub_le _ _)
  obtain ⟨hend, hlen⟩ := ldRun_ends (k := s.stream.size / 4 + 1) hp (by omega)
  refine ⟨fun hrun => ?_, ldStep_pos_le, hend, by omega⟩
  rcases ldStep_ends_or_reads s with ⟨ht, -⟩ | ⟨-, -, -, hpos, -⟩
  · exact absurd (ht.symm.trans hrun) (by decide)
  · exact hpos

/-- A run whose first record ends the stream with no entry has none after any number of records. -/
theorem ldRun_of_ends {s : State} (hp : s.phase = .hdr) (hend : (ldStep s).phase = .done)
    (he : (ldStep s).entries = s.entries) (k : Nat) :
    (ldRun k s).entries = s.entries ∧ (ldRun (k + 1) s).phase = .done := by
  have hrun : ∀ n, ldRun (n + 1) s = ldStep s := fun n => by
    rw [ldRun_succ (by rw [hp]; rfl), ldRun_of_terminal (by rw [hend]; rfl)]
  refine ⟨?_, by rw [hrun, hend]⟩
  cases k with
  | zero => rfl
  | succ k => rw [hrun, he]

/-- The first byte of a presented stream (R50). -/
theorem ofBytes_byteAt_zero {bytes : List Byte} {c : Byte} (h : bytes.head? = some c) :
    (Memory.ofBytes bytes).byteAt 0 = c := by
  rw [List.head?_eq_getElem?] at h
  obtain ⟨hlt, hc⟩ := List.getElem?_eq_some_iff.mp h
  exact (ofBytes_byteAt bytes 0 hlt).trans hc

/-- Settles O55: the first header is short, or its code is 0x00, which every legal registry names EMPTY (R91). -/
theorem emptyDecodes : Obligations.EmptyDecodes := by
  intro cfg bytes s k hl hb
  have hsize : (launch cfg bytes s).stream.size = bytes.length := ofBytes_size bytes
  have hpos : (launch cfg bytes s).pos = 0 := rfl
  obtain ⟨hend, he⟩ : (ldStep (launch cfg bytes s)).phase = .done ∧ (ldStep (launch cfg bytes s)).entries = [] := by
    by_cases hshort : bytes.length < 4
    · rw [ldStep_at_short (by omega)]
      exact ⟨rfl, rfl⟩
    · have hcode : headerCode (launch cfg bytes s).stream 0 = 0x00 := ofBytes_byteAt_zero (hb.resolve_left hshort)
      have hs : (cfg.registry.lookup (headerCode (launch cfg bytes s).stream 0)).isSentinel = true := by
        rw [hcode, (Registry.legal_iff.mp hl).1]
        rfl
      rw [ldStep_at_sentinel (by omega) hs]
      exact ⟨rfl, rfl⟩
  exact ldRun_of_ends rfl hend he k

/-! ### The byte-serial reader (R176) -/

/-- A read of one byte more (R55). -/
theorem read_succ {m : Memory} {pos n : Nat} (h : pos + n < m.size) :
    m.read pos (n + 1) = m.read pos n ++ [m.byteAt (pos + n)] := by
  have hmore : min (n + 1) (m.size - pos) = n + 1 := by omega
  have hfit : min n (m.size - pos) = n := by omega
  simp only [Memory.read, hmore, hfit, List.range_succ, List.map_append, List.map_singleton]

/-- Storing the next byte of what is laid into a buffer (R25, R176). -/
theorem overlay_set {new old : List Byte} (h : new.length < old.length) (b : Byte) :
    (overlay new old).set new.length b = overlay (new ++ [b]) old := by
  simp only [overlay]
  rw [List.set_append_right _ _ le_rfl, Nat.sub_self, List.drop_eq_getElem_cons h, List.set_cons_zero,
    List.length_append, List.length_singleton, List.append_assoc, List.singleton_append]

namespace SerialReader

theorem run_add (m n : Nat) (r : SerialReader) : run (m + n) r = run n (run m r) := by
  induction m generalizing r with
  | zero => rw [Nat.zero_add, run]
  | succ m ih =>
    rw [Nat.succ_add]
    exact ih r.step

theorem run_succ (n : Nat) (r : SerialReader) : run (n + 1) r = (run n r).step := run_add n 1 r

theorem exhausted_iff {r : SerialReader} : r.exhausted = true ↔ r.mach.stream.size ≤ r.mach.pos := decide_eq_true_iff

/-! #### The header -/

theorem step_of_hdr {r : SerialReader} (hp : r.mach.phase = .hdr) : r.step = r.headerByte := by simp only [step, hp]

section
variable {r : SerialReader} (h : ¬ r.exhausted = true)
include h

theorem headerByte_of_lt (hlen : r.header.length < 3) : r.headerByte =
    { r with mach := { r.mach with pos := r.mach.pos + 1 }
             header := r.header ++ [r.mach.stream.byteAt r.mach.pos] } := by
  obtain ⟨mach, header, left⟩ := r
  rw [headerByte, if_neg h]
  match header, hlen with
  | [], _ => rfl
  | [_], _ => rfl
  | [_, _], _ => rfl

theorem headerByte_fourth {c len hi : Byte} (hh : r.header = [c, len, hi]) :
    r.headerByte = r.latch c len hi (r.mach.stream.byteAt r.mach.pos) := by
  obtain ⟨mach, header, left⟩ := r
  subst hh
  rw [headerByte, if_neg h]

end

/-- The reader that started at `s` after `j` header bytes. -/
def headerTaken (s : State) (j : Nat) : SerialReader :=
  { mach := { s with pos := s.pos + j }, header := s.stream.read s.pos j, left := 0 }

theorem headerTaken_not_exhausted {s : State} {j : Nat} (h : s.pos + j < s.stream.size) :
    ¬ (headerTaken s j).exhausted = true := fun hex => Nat.not_le_of_lt h (exhausted_iff.mp hex)

section
variable {s : State} (hp : s.phase = .hdr)
include hp

theorem headerTaken_step {j : Nat} (hj : j < 3) (h : s.pos + j < s.stream.size) :
    (headerTaken s j).step = headerTaken s (j + 1) := by
  have hlen : (headerTaken s j).header.length < 3 := by
    simp only [headerTaken, read_length]
    omega
  rw [step_of_hdr hp, headerByte_of_lt (headerTaken_not_exhausted h) hlen]
  simp only [headerTaken, read_succ h, Nat.add_assoc]

/-- The header byte counter counts (R176). -/
theorem run_headerTaken {j : Nat} (hj : j ≤ 3) (h : s.pos + j ≤ s.stream.size ∨ j = 0) :
    run j (start s) = headerTaken s j := by
  induction j with
  | zero => simp [run, start, headerTaken, Memory.read]
  | succ j ih => rw [run_succ, ih (by omega) (by omega), headerTaken_step hp (by omega) (by omega)]

/-- A header the stream cuts short ends it, at whichever byte (R171). -/
theorem run_at_short (h : s.stream.size - s.pos < 4) :
    (run (s.stream.size - s.pos + 1) (start s)).mach = endShort s := by
  have hex : (headerTaken s (s.stream.size - s.pos)).exhausted = true := exhausted_iff.mpr (by
    simp only [headerTaken]
    omega)
  rw [run_succ, run_headerTaken hp (by omega) (by omega), step_of_hdr hp, headerByte, if_pos hex]
  rfl

/-- The fourth byte latches the header (R172). -/
theorem run_header (h : s.pos + 4 ≤ s.stream.size) :
    run 4 (start s) = (headerTaken s 3).latch (headerCode s.stream s.pos) (headerLen s.stream s.pos)
      (s.stream.byteAt (s.pos + 2)) (s.stream.byteAt (s.pos + 3)) := by
  have hmore : ¬ (headerTaken s 3).exhausted = true := headerTaken_not_exhausted (by omega)
  have hthree : min 3 (s.stream.size - s.pos) = 3 := by omega
  rw [run_succ, run_headerTaken hp le_rfl (by omega), step_of_hdr hp, headerByte_fourth hmore (hh := _)]
  · rfl
  · simp [headerTaken, Memory.read, hthree, List.range_succ, headerCode, headerLen]

end

/-! #### The payload -/

theorem step_of_pay {r : SerialReader} (hp : r.mach.phase = .pay) : r.step = r.payloadByte := by simp only [step, hp]

/-- The reader at a latched header's `s` after `j` payload bytes. -/
def payloadTaken (s : State) (j : Nat) : SerialReader :=
  { mach := { s with pay := overlay (s.stream.read s.pos j) s.pay, payN := j, pos := s.pos + j }
    header := []
    left := s.len.toNat - j }

section
variable {s : State} (hp : s.phase = .pay)
include hp

theorem payloadTaken_step {j : Nat} (hlen : j < s.len.toNat) (h : s.pos + j < s.stream.size)
    (hbuf : j < s.pay.length) : (payloadTaken s j).step = payloadTaken s (j + 1) := by
  have hmore : ¬ ((payloadTaken s j).left = 0 ∨ (payloadTaken s j).exhausted = true) := by
    rw [exhausted_iff]
    simp only [payloadTaken]
    omega
  have hread : (s.stream.read s.pos j).length = j := by
    rw [read_length]
    omega
  have hset := overlay_set (hread.trans_lt hbuf) (s.stream.byteAt (s.pos + j))
  rw [hread, ← read_succ h] at hset
  rw [step_of_pay hp, payloadByte, if_neg hmore]
  simp only [payloadTaken, hset, Nat.add_assoc, Nat.sub_sub]

/-- The down-counter counts (R176). -/
theorem run_payloadTaken {j : Nat} (hlen : j ≤ s.len.toNat) (h : j ≤ s.stream.size - s.pos)
    (hbuf : j ≤ s.pay.length) : run j (payloadTaken s 0) = payloadTaken s j := by
  induction j with
  | zero => rfl
  | succ j ih =>
    rw [run_succ, ih (by omega) (by omega) (by omega), payloadTaken_step hp (by omega) (by omega) (by omega)]

/-- The payload phase ends when the counter is 0 or the stream exhausted, with the bytes of one read (R174, R176). -/
theorem run_payload (hpos : s.pos ≤ s.stream.size) (hbuf : s.len.toNat ≤ s.pay.length) :
    (run (min s.len.toNat (s.stream.size - s.pos) + 1) (payloadTaken s 0)).mach = readPayload s := by
  have hend : (payloadTaken s (min s.len.toNat (s.stream.size - s.pos))).left = 0 ∨
      (payloadTaken s (min s.len.toNat (s.stream.size - s.pos))).exhausted = true := by
    rw [exhausted_iff]
    simp only [payloadTaken]
    omega
  rw [run_succ, run_payloadTaken hp (by omega) (by omega) (by omega), step_of_pay hp, payloadByte, if_pos hend]
  simp only [payloadTaken, readPayload, read_min, read_length, after_eq_add_min hpos]

end

/-! #### From the start of a header to `RR.NEXT`'s answer -/

/-- The latches the fourth byte writes at a record: the header's, and the payload byte count cleared (R176). -/
theorem latch_at_record {s : State} (h : s.pos + 4 ≤ s.stream.size)
    (hs : (s.cfg.registry.lookup (headerCode s.stream s.pos)).isSentinel = false) :
    (headerTaken s 3).latch (headerCode s.stream s.pos) (headerLen s.stream s.pos)
      (s.stream.byteAt (s.pos + 2)) (s.stream.byteAt (s.pos + 3)) = payloadTaken (latchAt .pay s) 0 := by
  simp [latch, headerTaken, payloadTaken, isSentinel, hs, latchHeader, after_of_le h, headerTs, overlay, Memory.read]

theorem latch_at_sentinel {s : State} (h : s.pos + 4 ≤ s.stream.size)
    (hs : (s.cfg.registry.lookup (headerCode s.stream s.pos)).isSentinel = true) :
    ((headerTaken s 3).latch (headerCode s.stream s.pos) (headerLen s.stream s.pos)
      (s.stream.byteAt (s.pos + 2)) (s.stream.byteAt (s.pos + 3))).mach = latchAt .done s := by
  simp [latch, headerTaken, isSentinel, hs, latchHeader, after_of_le h, headerTs]

end SerialReader

/-- Settles O38: a short header takes at most 4 steps, a sentinel 4, a record 4, one a payload byte, and one to end. -/
theorem serialReaderReachesRrNext : Obligations.SerialReaderReachesRrNext := by
  intro s hp hbuf
  by_cases hshort : s.stream.size - s.pos < 4
  · rw [rrNext_at_short hshort]
    exact ⟨_, by omega, SerialReader.run_at_short hp hshort, nofun, nofun⟩
  -- A whole header: its four bytes are latched, and its name decides what follows.
  have hw : s.pos + 4 ≤ s.stream.size := by omega
  have hheader := SerialReader.run_header hp hw
  cases hs : (s.cfg.registry.lookup (headerCode s.stream s.pos)).isSentinel
  · rw [rrNext_at_record hw hs]
    have hlen : (headerLen s.stream s.pos).toNat < 256 := (headerLen s.stream s.pos).isLt
    have hpos : (latchAt .pay s).pos ≤ s.stream.size := (after_of_le hw).trans_le hw
    have hpayload := SerialReader.run_payload (s := latchAt .pay s) rfl hpos
      (by rw [latchHeader_len, latchHeader_pay]; omega)
    rw [← SerialReader.latch_at_record hw hs, ← hheader, ← SerialReader.run_add] at hpayload
    exact ⟨_, by rw [latchHeader_len]; omega, hpayload, nofun, nofun⟩
  · rw [rrNext_at_sentinel hw hs]
    exact ⟨4, by decide, hheader ▸ SerialReader.latch_at_sentinel hw hs, nofun, nofun⟩

end Sys2Proof.Machine

/-! ## The log decoder (spec/43_log_decoder.md R190 to R198) -/

namespace Sys2Proof.Machine

/-! ### Entries and their deltas (R192 to R195) -/

/-- From `s` to `t` either no entry is made and `last_ts` stays, or one entry is appended, whose timestamp is the new
`last_ts` and whose delta is taken from the old one. -/
def EmitsFromLastTs (s t : State) : Prop :=
  (t.entries = s.entries ∧ t.lastTs = s.lastTs) ∨
  ∃ e, t.entries = s.entries ++ [e] ∧ e.timestamp = t.lastTs ∧ e.deltaTimestamp = t.lastTs - s.lastTs

theorem emitEntry_emits (s : State) : EmitsFromLastTs s (emitEntry s) :=
  Or.inr ⟨entryOf s, rfl, rfl, tsDelta_eq_sub s.ts s.lastTs⟩

/-- Up to its emit step a record leaves the entries and `last_ts` alone. -/
theorem recordBody_emits (kind : DecoderKind) (c len : Byte) (ts : Half) (s : State) :
    EmitsFromLastTs s (recordBody kind c len ts s) := by
  rcases recordBody_forms kind c len ts s with ⟨str, pv, e, -⟩ | ⟨-, -, e⟩ <;> rw [e]
  · exact emitEntry_emits (storeString str { beforeDecode c len ts s with pv := pv })
  · exact Or.inl ⟨rfl, rfl⟩

theorem step_emits {s t : State} (h : step s = .next t) : EmitsFromLastTs s t := by
  cases step_effect h with
  | short _ => exact Or.inl ⟨rfl, rfl⟩
  | sentinel _ c len ts => exact Or.inl ⟨rfl, rfl⟩
  | record _ c len ts _ => exact recordBody_emits _ c len ts s
  | payload _ => exact Or.inl ⟨rfl, rfl⟩
  | decode _ _ =>
    rcases decodeAs_forms (s.cfg.registry.lookup s.ev).kind s with ⟨str, pv, e⟩ | ⟨-, -, e⟩ <;> rw [e] <;>
      exact Or.inl ⟨rfl, rfl⟩
  | parity _ pv _ => exact Or.inl ⟨rfl, rfl⟩
  | render _ =>
    rw [renderParity_eq]
    exact Or.inl ⟨rfl, rfl⟩
  | emit _ => exact emitEntry_emits s

theorem ldStep_emits (s : State) : EmitsFromLastTs s (ldStep s) := by
  rcases ldStep_cases s with ⟨-, e⟩ | ⟨-, -, e⟩ | ⟨-, -, e⟩ <;> rw [e]
  · exact Or.inl ⟨rfl, rfl⟩
  · exact Or.inl ⟨rfl, rfl⟩
  · exact recordBody_emits ..

theorem deltaSum_append_singleton (es : List LogEntry) (e : LogEntry) :
    deltaSum (es ++ [e]) = deltaSum es + e.deltaTimestamp := by
  simp [deltaSum]

/-- Settles O33: the appended delta is the new `last_ts` less the old one, which is the sum so far. -/
theorem stepKeepsDeltaSum : Obligations.StepKeepsDeltaSum := by
  intro s t hsum hstep
  rcases step_emits hstep with ⟨he, hl⟩ | ⟨e, he, -, hdelta⟩
  · rw [he, hl, hsum]
  · rw [he, deltaSum_append_singleton, hsum, hdelta, add_sub_cancel]

/-- The corrected difference as a natural number (R193). -/
theorem tsDelta_toNat (ts last : Half) : (tsDelta ts last).toNat =
    if last.toNat ≤ ts.toNat then ts.toNat - last.toNat else 65536 - last.toNat + ts.toNat := by
  have hts : ts.toNat < 65536 := ts.isLt
  unfold tsDelta
  split <;> rw [BitVec.toNat_ofNat] <;> omega

/-- Settles O30: `tsDelta_toNat` over the integers, in its two cases. -/
theorem deltaIsWrapCorrected : Obligations.DeltaIsWrapCorrected := by
  intro ts last
  have hts : ts.toNat < 65536 := ts.isLt
  have hlast : last.toNat < 65536 := last.isLt
  rw [tsDelta_toNat]
  by_cases hle : last.toNat ≤ ts.toNat
  · simp only [if_pos hle]
    omega
  · simp only [if_neg hle]
    omega

/-- Settles O31: `tsDelta_eq_sub`. -/
theorem deltaIsWrappingSubtraction : Obligations.DeltaIsWrappingSubtraction := tsDelta_eq_sub

/-- What makes the first entry's delta its timestamp (R194): `last_ts` is 0 as long as there is no entry. -/
def State.FirstDelta (s : State) : Prop :=
  match s.entries with
  | [] => s.lastTs = 0
  | e :: _ => e.deltaTimestamp = e.timestamp

theorem EmitsFromLastTs.firstDelta {s t : State} (h : EmitsFromLastTs s t) (hs : s.FirstDelta) : t.FirstDelta := by
  unfold State.FirstDelta at hs ⊢
  rcases h with ⟨he, hl⟩ | ⟨e, he, hts, hdelta⟩ <;> rw [he]
  · rwa [hl]
  · cases hes : s.entries with
    | nil =>
      rw [hes] at hs
      have hzero : s.lastTs = 0 := hs
      simp [hdelta, hts, hzero]
    | cons e' es =>
      rw [hes] at hs
      exact hs

/-- The induction over a run, said once: what every `LD.STEP` keeps, the run keeps (R196). -/
theorem ldRun_keeps {P : State → Prop} (hkeep : ∀ s, P s → P (ldStep s)) (k : Nat) {s : State} (hs : P s) :
    P (ldRun k s) := by
  induction k generalizing s with
  | zero => exact hs
  | succ k ih =>
    cases ht : s.phase.terminal
    · rw [ldRun_succ ht]
      exact ih (hkeep s hs)
    · rwa [ldRun_of_terminal ht]

/-- Settles O32: a launch has `FirstDelta`, and every `LD.STEP` keeps it. -/
theorem firstEntryDelta : Obligations.FirstEntryDelta := by
  intro cfg bytes s k e
  have hlast : (launch cfg bytes s).lastTs = 0 := rfl
  refine ⟨hlast, fun he => ?_⟩
  have hrun : (ldRun k (launch cfg bytes s)).FirstDelta :=
    ldRun_keeps (fun u hu => (ldStep_emits u).firstDelta hu) k hlast
  obtain ⟨es, hes⟩ := List.head?_eq_some_iff.mp he
  rwa [State.FirstDelta, hes] at hrun

/-! ### The step and `LD.STEP` (R190) -/

theorem ldStep_at_record {s : State} (h : s.pos + 4 ≤ s.stream.size)
    (hs : (s.cfg.registry.lookup (headerCode s.stream s.pos)).isSentinel = false) :
    ldStep s = recordBody (s.cfg.registry.lookup (headerCode s.stream s.pos)).kind
      (headerCode s.stream s.pos) (headerLen s.stream s.pos) (headerTs s.stream s.pos) s := by
  rw [ldStep, rrNext_at_record h hs]
  rfl

/-- Settles O36: the decoded instruction and the registry come to the same end at a short header, a sentinel and a
record. -/
theorem stepIsLdStep : Obligations.StepIsLdStep := by
  intro s hl hp
  rw [step_of_hdr hl hp]
  rcases stepRecord_cases hp with ⟨hshort, e⟩ | ⟨hw, hs, e⟩ | ⟨hw, hs, e⟩ <;> rw [e]
  · rw [ldStep_at_short hshort]
  · rw [ldStep_at_sentinel (by omega) hs]
  · rw [ldStep_at_record (by omega) hs]

/-- Settles O34: the fetched instruction's arm of `stepRecord`. -/
theorem stepRunsRecord : Obligations.StepRunsRecord := by
  intro s i rest hl hp hdec
  simp only [step_of_hdr hl hp, stepRecord, hdec]

/-! ### The decode and the emit phase (R191, R192) -/

/-- A decoder that does not use PV ends the decode phase with its answer (R191). -/
theorem decodeAs_eq_finishDecode {kind : DecoderKind} (hk : kind ≠ .parityHex) (s : State) :
    decodeAs kind s = finishDecode (decodeString s.cfg kind s.payload) s := by
  cases kind with
  | empty => rfl
  | text => rfl
  | rawHex => rfl
  | parityHex => exact absurd rfl hk

/-- A step in `P_DEC` with PV idle, for such a kind. -/
theorem step_decode {s : State} (hl : s.cfg.legal = true) (hp : s.phase = .dec) (hr : s.pv.run = .idle)
    (hk : (s.cfg.registry.lookup s.ev).kind ≠ .parityHex) :
    step s = .next (finishDecode (decodeString s.cfg (s.cfg.registry.lookup s.ev).kind s.payload) s) := by
  rw [step_of_dec hl hp, stepDecode, hr, ← decodeAs_eq_finishDecode hk]
  rcases decodePhase_cases s with ⟨hpar, -⟩ | ⟨-, e⟩
  · exact absurd hpar hk
  · rw [e]

/-- Settles O42: `step_decode` for each of the decoder's two answers. -/
theorem decodeStep : Obligations.DecodeStep := by
  intro s hl hp hr hk
  have hstep := step_decode hl hp hr hk
  refine ⟨fun str h => ?_, fun j b h => ?_⟩ <;> rw [h] at hstep
  · exact ⟨storeString str s, hstep, storeString_decoded str s, rfl, rfl, rfl⟩
  · exact hstep

/-- Settles O44: the delta in `entryOf` by `tsDelta_eq_sub`. -/
theorem emitStep : Obligations.EmitStep := by
  intro s hl hp
  have hstep : step s = .next (emitEntry s) := by simp only [step, hl, hp, if_true, emitPhase]
  rw [hstep, emitEntry, entryOf, tsDelta_eq_sub]
  rfl

/-! ### The terminal phases (R198) -/

/-- Settles O45: the two arms of `step`. -/
theorem terminalPhasesStop : Obligations.TerminalPhasesStop :=
  fun _ hl => ⟨fun hp => by simp only [step, hl, hp, if_true], fun hp => by simp only [step, hl, hp, if_true]⟩

/-- No record begins in a terminal phase. -/
theorem atHeader_of_terminal (s t : State) : (s.phase = .done → atHeader s t = .fault .runEnded) ∧
    (s.phase = .faulted → atHeader s t = .fault .invalidTextEncoding) :=
  ⟨fun hp => by simp only [atHeader, hp], fun hp => by simp only [atHeader, hp]⟩

/-- No group is walked in a terminal phase. -/
theorem atGroup_of_terminal (s t : State) : (s.phase = .done → atGroup s t = .fault .runEnded) ∧
    (s.phase = .faulted → atGroup s t = .fault .invalidTextEncoding) :=
  ⟨fun hp => by simp only [atGroup, hp], fun hp => by simp only [atGroup, hp]⟩

/-- Settles O28: GRP9 is enabled by `atGroup`, every record by `atHeader`. -/
theorem nothingRunsInTerminalPhases : Obligations.NothingRunsInTerminalPhases := by
  intro i s
  cases i with
  | grp9 d p => exact atGroup_of_terminal s _
  | _ => exact atHeader_of_terminal s _

end Sys2Proof.Machine

/-! ## The conditions (spec/60_exceptions.md R210 to R222) -/

namespace Sys2Proof.Machine

/-! ### InvalidTextEncoding (R213) -/

/-- A byte above 0x7F anywhere in the text is found under the policy `fault` (R112). -/
theorem decTextFrom_fault_of_exists {bs : List Byte} (h : ∃ b ∈ bs, 0x7F < b.toNat) (k : Nat) :
    ∃ j b, decTextFrom .fault k bs = .invalidText j b := by
  induction bs generalizing k with
  | nil => simp at h
  | cons b bs ih =>
    by_cases hb : b.toNat ≤ 0x7F
    · have hrest : ∃ b' ∈ bs, 0x7F < b'.toNat := by simpa [Nat.not_lt.mpr hb] using h
      obtain ⟨j, b', e⟩ := ih hrest (k + 1)
      exact ⟨j, b', by simp [decTextFrom, hb, e, DecodeResult.cons]⟩
    · exact ⟨k, b, by simp [decTextFrom, hb]⟩

/-- The fault entry of a record that has been read (R213, R220): the fault registers and the phase, nothing else. -/
theorem recordFaulted_raise (c len : Byte) (ts : Half) (s : State) :
    RecordFaulted s (raise .invalidTextEncoding (beforeDecode c len ts s)) c len ts where
  fault := rfl
  faultCode := rfl
  phase := rfl
  ev := rfl
  len := rfl
  ts := rfl
  payN := rfl
  payload := beforeDecode_payload c len ts s
  payRest := overlay_drop _ _
  pos := rfl
  lastTs := rfl
  entries := rfl
  dstr := rfl
  dstrN := rfl
  pv := rfl
  stream := rfl
  cfg := rfl

/-- A record whose decoder answers InvalidTextEncoding takes the fault entry (R191, R213). -/
theorem recordBody_recordFaulted {len : Byte} {s : State}
    (h : ∃ j b, decodeString s.cfg .text (s.nextPayload len) = .invalidText j b) (c : Byte) (ts : Half) :
    RecordFaulted s (recordBody .text c len ts s) c len ts := by
  obtain ⟨j, b, h⟩ := h
  rcases recordBody_cases .text c len ts s with ⟨-, str, h', -⟩ | ⟨hk, -⟩ | ⟨-, -, e⟩
  · rw [beforeDecode_payload, h] at h'
    cases h'
  · cases hk
  · rw [e]
    exact recordFaulted_raise c len ts s

/-- Under a policy other than `fault` every record makes its entry (R112, R213). -/
theorem recordBody_recordDone_of_policy {s : State} (hpol : s.cfg.textPolicy ≠ .fault) (kind : DecoderKind)
    (c len : Byte) (ts : Half) : ∃ data, RecordDone s (recordBody kind c len ts s) c len ts data := by
  rcases recordBody_forms kind c len ts s with ⟨str, pv, e, -⟩ | ⟨-, hfault, -⟩
  · exact ⟨str, e ▸ recordDone_emitEntry c len ts s str pv⟩
  · exact absurd hfault hpol

/-- Settles O23: GENERIC and REC.TEXT are the Text record, which faults or makes its entry by the policy. -/
theorem textFaultTaken : Obligations.TextFaultTaken := by
  intro c len ts s hp
  refine ⟨fun hpol hbad => ?_, fun hpol => ?_⟩
  · have h : ∃ j b, decodeString s.cfg .text (s.nextPayload len) = .invalidText j b := by
      rw [decodeString, hpol]
      exact decTextFrom_fault_of_exists hbad 0
    exact ⟨⟨_, atHeader_of_hdr hp _, recordBody_recordFaulted h 0x10 ts⟩,
      ⟨_, atHeader_of_hdr hp _, recordBody_recordFaulted h c ts⟩⟩
  · obtain ⟨_, hgeneric⟩ := recordBody_recordDone_of_policy hpol .text 0x10 len ts
    obtain ⟨_, htext⟩ := recordBody_recordDone_of_policy hpol .text c len ts
    exact ⟨⟨_, atHeader_of_hdr hp _, hgeneric.fault, hgeneric.phase⟩,
      ⟨_, atHeader_of_hdr hp _, htext.fault, htext.phase⟩⟩

/-! ### UnknownEventCode (R214) -/

/-- The emit step reads the latch `ev` for its entry in the registry only (R192). -/
theorem emitEntry_with_ev {s : State} {c : Byte}
    (h : s.cfg.registry.lookup c = s.cfg.registry.lookup s.ev) :
    emitEntry { s with ev := c } = { emitEntry s with ev := c } := by
  simp [emitEntry, entryOf, h, State.decoded]

/-- The RawHex record makes its entry from the hex of the payload (R113, R191). -/
theorem recordBody_rawHex (c len : Byte) (ts : Half) (s : State) :
    recordBody .rawHex c len ts s =
      emitEntry (storeString (hex (beforeDecode c len ts s).payload) (beforeDecode c len ts s)) := rfl

/-- Two codes with one entry in the registry give RawHex records that differ in the latch `ev` only (R89, R214). -/
theorem recordBody_rawHex_of_lookup_eq {s : State} {c c' : Byte}
    (h : s.cfg.registry.lookup c' = s.cfg.registry.lookup c) (len : Byte) (ts : Half) :
    recordBody .rawHex c' len ts s = { recordBody .rawHex c len ts s with ev := c' } := by
  rw [recordBody_rawHex, recordBody_rawHex]
  exact emitEntry_with_ev (s := storeString _ (beforeDecode c len ts s)) h

/-- Settles O29: UNKNOWN is the RawHex record, and both codes have the default entry. -/
theorem unknownCodesAlike : Obligations.UnknownCodesAlike := by
  intro c c' len ts s t t' hc hc' hexec hexec'
  obtain ⟨-, rfl⟩ := atHeader_next_iff.mp hexec
  obtain ⟨-, rfl⟩ := atHeader_next_iff.mp hexec'
  exact recordBody_rawHex_of_lookup_eq (hc'.trans hc.symm) len ts

/-! ### Runs without a fault (R217) -/

/-- From `s` to `t` the parameters and `fault` stay, and `t` is between two records or at the good end. -/
structure NoFaultBetween (s t : State) : Prop where
  cfg : t.cfg = s.cfg
  fault : t.fault = s.fault
  phase : t.phase = .hdr ∨ t.phase = .done

theorem NoFaultBetween.trans {s t u : State} (h : NoFaultBetween s t) (h' : NoFaultBetween t u) :
    NoFaultBetween s u :=
  ⟨h'.cfg.trans h.cfg, h'.fault.trans h.fault, h'.phase⟩

/-- Under a policy other than `fault` an `LD.STEP` ends the stream or makes an entry (R190). -/
theorem ldStep_noFault {s : State} (hpol : s.cfg.textPolicy ≠ .fault) : NoFaultBetween s (ldStep s) := by
  rcases ldStep_cases s with ⟨-, e⟩ | ⟨-, -, e⟩ | ⟨-, -, e⟩ <;> rw [e]
  · exact ⟨rfl, rfl, Or.inr rfl⟩
  · exact ⟨rfl, rfl, Or.inr rfl⟩
  · obtain ⟨_, hdone⟩ := recordBody_recordDone_of_policy hpol _ _ _ _
    exact ⟨hdone.cfg, hdone.fault, Or.inl hdone.phase⟩

theorem ldRun_noFault {s : State} (hp : s.phase = .hdr) (hpol : s.cfg.textPolicy ≠ .fault) (k : Nat) :
    NoFaultBetween s (ldRun k s) :=
  ldRun_keeps (fun _ hu => hu.trans (ldStep_noFault (hu.cfg ▸ hpol))) k ⟨rfl, rfl, Or.inl hp⟩

/-- Settles O54: the run ends (R197), and with no fault its end is `P_DONE`. -/
theorem runEndsWellWithoutFaultPolicy : Obligations.RunEndsWellWithoutFaultPolicy := by
  intro s hp hpol
  have hrun := ldRun_noFault hp hpol (s.stream.size / 4 + 1)
  obtain ⟨-, -, hend, -⟩ := runEnds s hp
  refine ⟨hrun.phase.resolve_left fun hhdr => ?_, hrun.fault⟩
  rw [hhdr] at hend
  cases hend

end Sys2Proof.Machine
